-- ==== Sys2Proof/Word.lean ====
section
/-! DEFINITION. The two word types of the block (00_scope.md R12, R15) and the three-word result of an unpacked payload. -/

namespace Sys2Proof

/-- A byte: 8 bits, unsigned (R12, R15). -/
abbrev Byte := BitVec 8

/-- A 32-bit field, the raw pattern of a binary32 value that the block never interprets (R15, R126). -/
abbrev Word32 := BitVec 32

/-- The three words of an inbound payload, in the order of R171. -/
structure Words where
  roll : Word32
  pitch : Word32
  yaw : Word32
deriving DecidableEq, Repr

end Sys2Proof
end

