-- ==== Sys2Proof/Config.lean ====
section
/-! DEFINITION. The parameters of an installed block (00_scope.md R9, R10): the fixed ones are constants, the OPEN ones are
the fields of `Config`, and the four test configurations are those of 95_test_vectors.md section 0.
The model holds a block's `Config` in its State (notes/assumptions/1.md); no operation writes it (R29, R64). -/

namespace Sys2Proof

/-- `CRC_POLY`, fixed by the source (R9, R101). -/
def crcPoly : Byte := 0x07#8

/-- `CRC_ITER`, fixed by the source (R9, R102): one shift per bit of a byte. -/
def crcIter : Nat := 8

/-- `OUT_PAYLOAD_LEN`, fixed by the source (R9). -/
def outPayloadLen : Nat := 12

/-- `OUT_FRAME_LEN`, fixed by the source (R9). -/
def outFrameLen : Nat := 14

/-- `BYTE_ORDER` (R9, R55). -/
inductive ByteOrder where
  | le
  | be
deriving DecidableEq, Repr

/-- The default of `BYTE_ORDER` (R9, R55). -/
def defaultByteOrder : ByteOrder := .le

/-- `ERR_W`: a count of bits, or `inf` (R9, R25). -/
inductive ErrWidth where
  | bits (w : Nat)
  | inf
deriving DecidableEq, Repr

/-- The OPEN and decided parameters of R9. `N_IN = 0` has no value of this type: no block exists with it (R10, 93 U6). -/
structure Config where
  crcInit : Byte
  outStartByte : Byte
  inStartByte : Byte
  nIn : Nat
  byteOrder : ByteOrder
  errW : ErrWidth
  nIn_pos : 1 ≤ nIn
deriving DecidableEq, Repr

/-- `IN_FRAME_LEN = N_IN + 2` (R9). -/
def Config.inFrameLen (cfg : Config) : Nat := cfg.nIn + 2

/-- What an integrator asks for when a block is configured: every parameter of R9 that a request could get wrong,
the fixed `CRC_POLY` and `CRC_ITER` among them (R207 (c)). -/
structure RawConfig where
  crcPoly : Byte
  crcIter : Nat
  crcInit : Byte
  outStartByte : Byte
  inStartByte : Byte
  nIn : Nat
  byteOrder : ByteOrder
  errW : ErrWidth
deriving DecidableEq, Repr

/-- Why a configuration is refused (R10, R207 (c)); each is safe: no block is built. -/
inductive ConfigRefusal where
  /-- `CRC_POLY` other than `0x07`. -/
  | polynomial
  /-- `CRC_ITER` other than 8 (93 U13). -/
  | iterations
  /-- `N_IN = 0` (93 U6). -/
  | zeroPayload
deriving DecidableEq, Repr

/-- Test configuration TC1 (95_test_vectors.md section 0; 92 D26). -/
def Config.tc1 : Config :=
  { crcInit := 0x00#8, outStartByte := 0xA5#8, inStartByte := 0xA5#8, nIn := 12, byteOrder := defaultByteOrder, errW := .bits 32,
    nIn_pos := by decide }

/-- Test configuration TC2. -/
def Config.tc2 : Config :=
  { crcInit := 0xFF#8, outStartByte := 0x55#8, inStartByte := 0xAA#8, nIn := 12, byteOrder := .be, errW := .bits 32,
    nIn_pos := by decide }

/-- Test configuration TC3; `OUT_START_BYTE` and `BYTE_ORDER` are unused there, TC1's stand. -/
def Config.tc3 : Config :=
  { crcInit := 0x00#8, outStartByte := 0xA5#8, inStartByte := 0x7E#8, nIn := 2, byteOrder := defaultByteOrder, errW := .bits 32,
    nIn_pos := by decide }

/-- Test configuration TC4; `OUT_START_BYTE` and `BYTE_ORDER` are unused there, TC1's stand. -/
def Config.tc4 : Config :=
  { crcInit := 0xFF#8, outStartByte := 0xA5#8, inStartByte := 0x7E#8, nIn := 1, byteOrder := defaultByteOrder, errW := .bits 32,
    nIn_pos := by decide }

end Sys2Proof
end

