-- ==== Sys2Proof/Machine/Operands.lean ====
section
/-! DEFINITION. Operand forms: a 32-bit field as four bytes under `BYTE_ORDER` (20_memory.md R55), the three fields of a
payload (R171), and the operand vector of a port as bytes, leftmost first (30_encoding.md R77). -/

namespace Sys2Proof.Machine

/-- `pack32` (R55). -/
def pack32 (o : ByteOrder) (w : Word32) : List Byte :=
  match o with
  | .le => [w.extractLsb' 0 8, w.extractLsb' 8 8, w.extractLsb' 16 8, w.extractLsb' 24 8]
  | .be => [w.extractLsb' 24 8, w.extractLsb' 16 8, w.extractLsb' 8 8, w.extractLsb' 0 8]

/-- `unpack32` of the four bytes `b0` (lowest offset) to `b3` (R55). -/
def unpack32 (o : ByteOrder) (b0 b1 b2 b3 : Byte) : Word32 :=
  match o with
  | .le => b3 ++ b2 ++ b1 ++ b0
  | .be => b0 ++ b1 ++ b2 ++ b3

/-- `unpack3` (R171): roll, pitch, yaw at payload offsets 0, 4, 8, further bytes ignored (R172); nothing when fewer than
twelve bytes are there. -/
def unpack3 (o : ByteOrder) (p : List Byte) : Option Words :=
  match p with
  | b0 :: b1 :: b2 :: b3 :: b4 :: b5 :: b6 :: b7 :: b8 :: b9 :: b10 :: b11 :: _ =>
    some { roll := unpack32 o b0 b1 b2 b3, pitch := unpack32 o b4 b5 b6 b7, yaw := unpack32 o b8 b9 b10 b11 }
  | _ => none

/-- A word in numeric bit order, bit 31 leftmost, independent of `BYTE_ORDER` (R77). -/
def numericBytes (w : Word32) : List Byte := pack32 .be w

/-- The word whose numeric bytes are the four given, leftmost first (R77). -/
def numericWord (b0 b1 b2 b3 : Byte) : Word32 := unpack32 .be b0 b1 b2 b3

/-- The low `8 * n` bits of `w` as `n` bytes, leftmost (most significant) first (R71, R77). -/
def bytesOfVector : Nat → Nat → List Byte
  | 0, _ => []
  | n + 1, w => BitVec.ofNat 8 (w >>> (8 * n)) :: bytesOfVector n w

/-- The bit vector whose bytes are `bs`, offset 0 leftmost (R71, R72, R77). -/
def vectorOfBytes (bs : List Byte) : Nat := bs.foldl (fun acc b => acc * 256 + b.toNat) 0

/-- The result vector of `DEC.UNPACK`: 96 bits `{roll, pitch, yaw}`, roll in the highest (R77). -/
def wordsVector (w : Words) : BitVec 96 := w.roll ++ w.pitch ++ w.yaw

/-- The result vector of `ENC.ENCODE`: the 112-bit `F` of a 14-byte frame, offset 0 leftmost (R71, R77). -/
def frameVector (f : List Byte) : BitVec 112 := BitVec.ofNat 112 (vectorOfBytes f)

/-- `strip_crc` (R82): the frame without its last byte. -/
def stripCrc (f : List Byte) : List Byte := f.dropLast

/-- `decode_payload` (R82): skip the start byte, unpack the twelve bytes after it. -/
def decodePayload (o : ByteOrder) (b : List Byte) : Option Words := unpack3 o ((b.drop 1).take 12)

end Sys2Proof.Machine
end

