-- ==== Sys2Proof/Syntax.lean ====
section
/-! DEFINITION. The operations of the block as syntax: the rows of spec/opcode_table.json, the ports they are asked for at,
and the names of the decoder's states, rows and error conditions. -/

namespace Sys2Proof

/-- The decoder's three states (R21). -/
inductive DecState where
  | idle
  | awaitingPayload
  | awaitingCrc
deriving DecidableEq, Repr

/-- The six rows of `DEC.FEED` (R16, R78). -/
inductive FeedRow where
  | idleStart
  | idleSkip
  | payloadMore
  | payloadLast
  | crcOk
  | crcBad
deriving DecidableEq, Repr

/-- The complete error taxonomy (R190, R195). -/
inductive ErrorCondition where
  | framingMismatch
  | checksumMismatch
deriving DecidableEq, Repr

/-- One constructor per row of spec/opcode_table.json. The six `feed…` constructors are the rows of `DEC.FEED`: each is the
byte `c` at the decoder's port in a state in which that row is the one that applies (R78).
`frameOut14` and `frameIn` are the two wire-format rows (R71, R72): the whole frame handed to the byte port, byte by byte
(notes/assumptions/4.md). -/
inductive Instr where
  /-- `CRC.UPDATE` (R100). -/
  | crcUpdate (crc data : Byte)
  /-- `ENC.ENCODE` (R120). -/
  | encEncode (x y z : Word32)
  /-- `FEED.IDLE.START` (R141). -/
  | feedIdleStart (c : Byte)
  /-- `FEED.IDLE.SKIP` (R142). -/
  | feedIdleSkip (c : Byte)
  /-- `FEED.PAYLOAD.MORE` (R143). -/
  | feedPayloadMore (c : Byte)
  /-- `FEED.PAYLOAD.LAST` (R144). -/
  | feedPayloadLast (c : Byte)
  /-- `FEED.CRC.OK` (R145). -/
  | feedCrcOk (c : Byte)
  /-- `FEED.CRC.BAD` (R146). -/
  | feedCrcBad (c : Byte)
  /-- `DEC.UNPACK` (R171). -/
  | decUnpack (payload : List Byte)
  /-- `DEC.RESET` (R174). -/
  | decReset
  /-- `ERR.READ` (R175). -/
  | errRead
  /-- `FRAME.OUT14` (R71): start byte `OUT_START_BYTE`, three words, CRC byte. -/
  | frameOut14 (x y z : Word32) (crc : Byte)
  /-- `FRAME.IN` (R72): start byte `IN_START_BYTE`, `N_IN` payload bytes, CRC byte. -/
  | frameIn (payload : List Byte) (crc : Byte)
deriving DecidableEq, Repr

/-- The ports at which operations are asked for: there is no opcode field, each operation has a request strobe of its own
(R77). The last two name the two wire formats of R70 as whole-frame requests. -/
inductive Port where
  | crc
  | enc
  | feed
  | unpack
  | reset
  | errRead
  | outFrame
  | inFrame
deriving DecidableEq, Repr

/-- One request: the port strobed, and the operand vector of R77 in bytes, leftmost byte first. -/
structure Request where
  port : Port
  operand : List Byte
deriving DecidableEq, Repr

end Sys2Proof
end

