-- ==== Sys2Proof/WellFormed.lean ====
section
/-! DEFINITION. Which operations exist in a configuration: the operand shapes of 30_encoding.md R76, R77 and the
configuration conditions of R10, R78, R172. -/

namespace Sys2Proof

/-- The instruction is one the block of configuration `cfg` has: a start-row byte is the start byte and a skipped byte is
not (R78), `FEED.PAYLOAD.MORE` exists only when `N_IN > 1` (R78), `DEC.UNPACK` only when `N_IN ≥ 12` and on `N_IN` bytes
(R171, R172), an inbound frame has `N_IN` payload bytes (R72). -/
def WellFormed (cfg : Config) (i : Instr) : Bool :=
  match i with
  | .crcUpdate _ _ => true
  | .encEncode _ _ _ => true
  | .feedIdleStart c => c == cfg.inStartByte
  | .feedIdleSkip c => c != cfg.inStartByte
  | .feedPayloadMore _ => decide (1 < cfg.nIn)
  | .feedPayloadLast _ => true
  | .feedCrcOk _ => true
  | .feedCrcBad _ => true
  | .decUnpack p => decide (12 ≤ cfg.nIn) && p.length == cfg.nIn
  | .decReset => true
  | .errRead => true
  | .frameOut14 _ _ _ _ => true
  | .frameIn p _ => p.length == cfg.nIn

end Sys2Proof
end

