-- ==== Sys2Proof/Decode.lean ====
section
/-! DEFINITION. From a request at a port to an operation, and back. `DEC.FEED` is one operation at its port; which of its six
rows the byte selects is decided by the decoder's registers (30_encoding.md R76, R78), so decoding takes the registers
the dispatch map reads. Decoding is total and refuses by name; the encoder follows. -/

namespace Sys2Proof

/-- What the dispatch map of R78 reads: the configuration and the decoder's `state`, `idx`, `crc_acc`. -/
structure FeedView where
  cfg : Config
  state : DecState
  idx : Nat
  crcAcc : Byte
deriving DecidableEq, Repr

/-- Why a request is no operation of the block. All are safe: the machine stops. -/
inductive Reject where
  /-- The operand vector does not have the port's width (R76, R77). -/
  | operandLength
  /-- A frame request does not begin with its direction's start byte (R71, R72). -/
  | startByte
  /-- `DEC.UNPACK` in a configuration with `N_IN < 12`, where it does not exist (R172). -/
  | unpackAbsent
  /-- No row of R78 applies: `AwaitingPayload` with `idx ≥ N_IN`, a state no run reaches (R33 (b)). -/
  | noRow
deriving DecidableEq, Repr

/-- The column "condition" of the dispatch map (R78), row by row. -/
def rowCondition (r : FeedRow) (v : FeedView) (c : Byte) : Bool :=
  match r with
  | .idleStart => v.state == .idle && c == v.cfg.inStartByte
  | .idleSkip => v.state == .idle && c != v.cfg.inStartByte
  | .payloadMore => v.state == .awaitingPayload && decide (v.idx + 1 < v.cfg.nIn)
  | .payloadLast => v.state == .awaitingPayload && v.idx + 1 == v.cfg.nIn
  | .crcOk => v.state == .awaitingCrc && c == v.crcAcc
  | .crcBad => v.state == .awaitingCrc && c != v.crcAcc

/-- The dispatch map of `DEC.FEED` read as a function (R78). -/
def selectRow (v : FeedView) (c : Byte) : Option FeedRow :=
  match v.state with
  | .idle => if c = v.cfg.inStartByte then some .idleStart else some .idleSkip
  | .awaitingPayload =>
    if v.idx + 1 < v.cfg.nIn then some .payloadMore
    else if v.idx + 1 = v.cfg.nIn then some .payloadLast
    else none
  | .awaitingCrc => if c = v.crcAcc then some .crcOk else some .crcBad

/-- The operation that row `r` of `DEC.FEED` is on byte `c`. -/
def feedInstr (r : FeedRow) (c : Byte) : Instr :=
  match r with
  | .idleStart => .feedIdleStart c
  | .idleSkip => .feedIdleSkip c
  | .payloadMore => .feedPayloadMore c
  | .payloadLast => .feedPayloadLast c
  | .crcOk => .feedCrcOk c
  | .crcBad => .feedCrcBad c

/-- The operation is the one its port would perform in view `v`: for a row of `DEC.FEED` its condition of R78 holds, every
other operation is always available (table column "condition"). -/
def Selected (v : FeedView) (i : Instr) : Bool :=
  match i with
  | .crcUpdate _ _ => true
  | .encEncode _ _ _ => true
  | .feedIdleStart c => rowCondition .idleStart v c
  | .feedIdleSkip c => rowCondition .idleSkip v c
  | .feedPayloadMore c => rowCondition .payloadMore v c
  | .feedPayloadLast c => rowCondition .payloadLast v c
  | .feedCrcOk c => rowCondition .crcOk v c
  | .feedCrcBad c => rowCondition .crcBad v c
  | .decUnpack _ => true
  | .decReset => true
  | .errRead => true
  | .frameOut14 _ _ _ _ => true
  | .frameIn _ _ => true

/-- `CRC.UPDATE`: sixteen bits, crc then data (R77). -/
def decodeCrc (bs : List Byte) : Except Reject Instr :=
  match bs with
  | [crc, data] => .ok (.crcUpdate crc data)
  | _ => .error .operandLength

/-- `ENC.ENCODE`: ninety-six bits, x, y, z in numeric bit order (R77). -/
def decodeEnc (bs : List Byte) : Except Reject Instr :=
  match bs with
  | [x0, x1, x2, x3, y0, y1, y2, y3, z0, z1, z2, z3] =>
    .ok (.encEncode (Machine.numericWord x0 x1 x2 x3) (Machine.numericWord y0 y1 y2 y3) (Machine.numericWord z0 z1 z2 z3))
  | _ => .error .operandLength

/-- `DEC.FEED`: eight bits, the row by the dispatch map (R77, R78). -/
def decodeFeed (v : FeedView) (bs : List Byte) : Except Reject Instr :=
  match bs with
  | [c] =>
    match selectRow v c with
    | some r => .ok (feedInstr r c)
    | none => .error .noRow
  | _ => .error .operandLength

/-- `DEC.UNPACK`: `8 * N_IN` bits, payload offset 0 leftmost; absent when `N_IN < 12` (R77, R172). -/
def decodeUnpack (cfg : Config) (bs : List Byte) : Except Reject Instr :=
  if cfg.nIn < 12 then .error .unpackAbsent
  else if bs.length = cfg.nIn then .ok (.decUnpack bs)
  else .error .operandLength

/-- A request with no operand bits (R77). -/
def decodeStrobe (i : Instr) (bs : List Byte) : Except Reject Instr :=
  match bs with
  | [] => .ok i
  | _ => .error .operandLength

/-- `FRAME.OUT14`: start byte, three fields in wire order, CRC byte (R71). -/
def decodeOutFrame (cfg : Config) (bs : List Byte) : Except Reject Instr :=
  match bs with
  | [st, x0, x1, x2, x3, y0, y1, y2, y3, z0, z1, z2, z3, crc] =>
    if st = cfg.outStartByte then
      .ok (.frameOut14 (Machine.unpack32 cfg.byteOrder x0 x1 x2 x3) (Machine.unpack32 cfg.byteOrder y0 y1 y2 y3)
        (Machine.unpack32 cfg.byteOrder z0 z1 z2 z3) crc)
    else .error .startByte
  | _ => .error .operandLength

/-- `FRAME.IN`: start byte, `N_IN` payload bytes, CRC byte (R72). -/
def decodeInFrame (cfg : Config) (bs : List Byte) : Except Reject Instr :=
  match bs with
  | st :: rest =>
    if rest.length = cfg.nIn + 1 then
      if st = cfg.inStartByte then .ok (.frameIn rest.dropLast (rest.getLastD 0#8)) else .error .startByte
    else .error .operandLength
  | [] => .error .operandLength

/-- The decoder: the operation a request stands for in the registers `v` (R76, R77, R78). -/
def decode (v : FeedView) (r : Request) : Except Reject Instr :=
  match r.port with
  | .crc => decodeCrc r.operand
  | .enc => decodeEnc r.operand
  | .feed => decodeFeed v r.operand
  | .unpack => decodeUnpack v.cfg r.operand
  | .reset => decodeStrobe .decReset r.operand
  | .errRead => decodeStrobe .errRead r.operand
  | .outFrame => decodeOutFrame v.cfg r.operand
  | .inFrame => decodeInFrame v.cfg r.operand

/-- The fourteen bytes of an outbound frame with CRC byte `crc` (R71). -/
def outFrameBytes (cfg : Config) (x y z : Word32) (crc : Byte) : List Byte :=
  cfg.outStartByte ::
    (Machine.pack32 cfg.byteOrder x ++ Machine.pack32 cfg.byteOrder y ++ Machine.pack32 cfg.byteOrder z ++ [crc])

/-- The `N_IN + 2` bytes of an inbound frame with CRC byte `crc` (R72). -/
def inFrameBytes (cfg : Config) (payload : List Byte) (crc : Byte) : List Byte :=
  cfg.inStartByte :: (payload ++ [crc])

/-- The encoder: the request that asks for an operation, written from the operand layouts of R71, R72, R77. -/
def encode (cfg : Config) (i : Instr) : Request :=
  match i with
  | .crcUpdate crc data => { port := .crc, operand := [crc, data] }
  | .encEncode x y z =>
    { port := .enc, operand := Machine.numericBytes x ++ Machine.numericBytes y ++ Machine.numericBytes z }
  | .feedIdleStart c => { port := .feed, operand := [c] }
  | .feedIdleSkip c => { port := .feed, operand := [c] }
  | .feedPayloadMore c => { port := .feed, operand := [c] }
  | .feedPayloadLast c => { port := .feed, operand := [c] }
  | .feedCrcOk c => { port := .feed, operand := [c] }
  | .feedCrcBad c => { port := .feed, operand := [c] }
  | .decUnpack p => { port := .unpack, operand := p }
  | .decReset => { port := .reset, operand := [] }
  | .errRead => { port := .errRead, operand := [] }
  | .frameOut14 x y z crc => { port := .outFrame, operand := outFrameBytes cfg x y z crc }
  | .frameIn p crc => { port := .inFrame, operand := inFrameBytes cfg p crc }

/-- A `DEC.FEED` request for the byte `c` (R77). -/
def feedRequest (c : Byte) : Request := { port := .feed, operand := [c] }

/-- The port a bare operand vector of `nbits` bits is taken to be meant for. The table gives no opcode bits (R77), so only the
width can tell the ports apart, and a frame's start byte its direction (notes/assumptions/5.md). -/
def tablePort (cfg : Config) (nbits w : Nat) : Port :=
  if nbits = 0 then .reset
  else if nbits = 8 then .feed
  else if nbits = 16 then .crc
  else if nbits = 96 then .enc
  else if nbits = 112 then
    if BitVec.ofNat 8 (w >>> 104) = cfg.outStartByte then .outFrame else .inFrame
  else if nbits = 8 * cfg.nIn then .unpack
  else .inFrame

/-- The request that a table word of `nbits` bits stands for. -/
def tableRequest (cfg : Config) (nbits w : Nat) : Request :=
  { port := tablePort cfg nbits w, operand := Machine.bytesOfVector (nbits / 8) w }

/-- The registers the dispatch map reads right after power-on reset of a block of configuration `cfg` (R34). -/
def resetView (cfg : Config) : FeedView := { cfg := cfg, state := .idle, idx := 0, crcAcc := cfg.crcInit }

/-- The decoder's reading of a table word, in the registers after reset of configuration TC1. -/
def decodeTableWord (nbits w : Nat) : Option Instr :=
  match decode (resetView Config.tc1) (tableRequest Config.tc1 nbits w) with
  | .ok i => some i
  | .error _ => none

end Sys2Proof
end

