-- ==== Sys2Proof/Machine/State.lean ====
section
/-! DEFINITION. The state of one decoder with its configuration, the operations still to be performed and the results shown
at the ports, as plain data; the reasons a step can stop; and the state after power-on reset. -/

namespace Sys2Proof.Machine

/-- A byte space (20_memory.md R50) as a list of (offset, byte) pairs in canonical form: offsets strictly rising, and no entry
equal to `unlistedByte`. -/
abbrev Memory := List Host.Cell

/-- What an offset with no entry reads as. DESIGN CHOICE, unsafe (notes/assumptions/2.md): the reset contents of the payload
buffer are unspecified (R34, 93 U10), the model takes zero. -/
def unlistedByte : Byte := 0x00#8

/-- The result of one `DEC.FEED` (R140, R170, R178): `None`, `None` with `crc_err = 1`, or `Some` payload with the three words
when the configuration has them. -/
inductive FeedResult where
  | nothing
  | mismatch
  | emit (payload : List Byte) (words : Option Words)
deriving DecidableEq, Repr

/-- The result an operation returns at its port (R76). It lasts for that one operation (R178, R196). -/
inductive Result where
  /-- No operation, or one without a result (`DEC.RESET`). -/
  | none
  /-- `CRC.UPDATE`. -/
  | crcOut (crc : Byte)
  /-- `ENC.ENCODE`: the frame, offset 0 first. -/
  | frame (bytes : List Byte)
  /-- `DEC.FEED`. -/
  | feed (r : FeedResult)
  /-- A whole frame fed byte by byte: the result of each `DEC.FEED`, in order (R82). -/
  | feedAll (rs : List FeedResult)
  /-- `DEC.UNPACK`. -/
  | words (w : Words)
  /-- `ERR.READ`. -/
  | count (n : Nat)
deriving DecidableEq, Repr

/-- One decoder of configuration `cfg` with the environment's script.
`state`, `crcAcc`, `idx`, `payloadBuf`, `errCount` are the five registers of R20, all the state the spec gives the block.
`cfg` holds the constants of R9 (notes/assumptions/1.md), `script` the operations the environment has issued and the block has
not yet performed, oldest first (R60, R81; notes/assumptions/3.md), `result` the outputs of the last step (R76). -/
structure State where
  cfg : Config
  state : DecState
  crcAcc : Byte
  idx : Nat
  payloadBuf : Memory
  errCount : Nat
  script : List Request
  result : Result
deriving DecidableEq, Repr

/-- The block has no faulting case: "Fault: none" (60_exceptions.md R207 (a)), so there is no constructor. -/
inductive Fault
deriving DecidableEq, Repr

/-- Why the model gives no next state. Each is safe: the model stops, it proves nothing of what follows. -/
inductive Refusal where
  /-- Raised by a refused arm of exec: the operation has no meaning yet. Safe. -/
  | notModelled (mnemonic : String)
  /-- Raised by step: the request is no operation of the block, for the reason given. Safe. -/
  | rejected (why : Reject)
  /-- Raised by a row of `DEC.FEED` asked for in registers or on a byte where its condition (R78) does not hold: the block
  performs another row there, and step decodes to that one. Safe. -/
  | rowNotSelected
  /-- Raised by a whole-frame feed in `AwaitingPayload` with `idx ≥ N_IN`, where no row of R78 applies; no run reaches it
  (R33 (b)). Safe. -/
  | noRow
  /-- Raised by `DEC.UNPACK` when `N_IN < 12`: the operation does not exist (R172, R207 (c)). Safe. -/
  | unpackAbsent
  /-- Raised by `DEC.UNPACK` on an operand that is not `N_IN` bytes long (R171). Safe. -/
  | operandLength
deriving DecidableEq, Repr

/-- Power-on reset of a block of configuration `cfg` whose payload buffer happens to hold `buf` (R34, R220). -/
def State.powerOn (cfg : Config) (buf : Memory) : State :=
  { cfg := cfg, state := .idle, crcAcc := cfg.crcInit, idx := 0, payloadBuf := buf, errCount := 0, script := [],
    result := .none }

/-- The machine right after reset: R34 in the test configuration TC1, which R9 gives as the value to take where the source
leaves a parameter OPEN. DESIGN CHOICE, unsafe (notes/assumptions/1.md, notes/assumptions/2.md). -/
def State.reset : State := State.powerOn Config.tc1 []

end Sys2Proof.Machine
end

