-- ==== Sys2Proof/Machine/Flags.lean ====
section
/-! DEFINITION. The block has no stored flags (10_state.md R28). What stands in their place: the two one-operation facts
`frame_valid` and `crc_err` of a `DEC.FEED` (R140, R178), the error condition an operation is an occurrence of
(R191, R192), and the saturating count (R25). -/

namespace Sys2Proof.Machine

/-- `frame_valid` (R140). -/
def FeedResult.frameValid (r : FeedResult) : Bool :=
  match r with
  | .nothing => false
  | .mismatch => false
  | .emit _ _ => true

/-- `crc_err` (R140). -/
def FeedResult.crcErr (r : FeedResult) : Bool :=
  match r with
  | .nothing => false
  | .mismatch => true
  | .emit _ _ => false

/-- `payload_out`, present only when `frame_valid` is 1 (R178). -/
def FeedResult.payloadOut (r : FeedResult) : Option (List Byte) :=
  match r with
  | .nothing => none
  | .mismatch => none
  | .emit p _ => some p

/-- The payloads that a sequence of `DEC.FEED` results emits, in order: the result of `feed_all` (R82). -/
def emitted (rs : List FeedResult) : List (List Byte) := rs.filterMap FeedResult.payloadOut

/-- The condition of the error taxonomy that an operation is an occurrence of (R191, R192): only two rows are. -/
def conditionOf (i : Instr) : Option ErrorCondition :=
  match i with
  | .crcUpdate _ _ => none
  | .encEncode _ _ _ => none
  | .feedIdleStart _ => none
  | .feedIdleSkip _ => some .framingMismatch
  | .feedPayloadMore _ => none
  | .feedPayloadLast _ => none
  | .feedCrcOk _ => none
  | .feedCrcBad _ => some .checksumMismatch
  | .decUnpack _ => none
  | .decReset => none
  | .errRead => none
  | .frameOut14 _ _ _ _ => none
  | .frameIn _ _ => none

/-- `min(n + 1, 2^ERR_W - 1)`, or `n + 1` when `ERR_W = inf` (R25, R146). -/
def satInc (w : ErrWidth) (n : Nat) : Nat :=
  match w with
  | .bits k => min (n + 1) (2 ^ k - 1)
  | .inf => n + 1

/-- `n` is a value of type `Count` (R15): at most `2^ERR_W - 1`, or any natural number when `ERR_W = inf`. -/
def countInRange (w : ErrWidth) (n : Nat) : Bool :=
  match w with
  | .bits k => decide (n ≤ 2 ^ k - 1)
  | .inf => true

end Sys2Proof.Machine
end

