-- ==== Sys2Proof/Machine/Ops.lean ====
section
/-! DEFINITION. The named operations over the byte spaces and the registers, the one shared operation for an error condition,
and the read-only status outputs. -/

namespace Sys2Proof.Machine

/-- Read one byte of a byte space (R52). -/
def Memory.read (m : Memory) (k : Nat) : Byte :=
  match m with
  | [] => unlistedByte
  | (k', b) :: rest => if k = k' then b else Memory.read rest k

/-- Write one byte of a byte space (R52), keeping the canonical form: the byte an unlisted offset reads as has no entry. -/
def Memory.write (m : Memory) (k : Nat) (b : Byte) : Memory :=
  match m with
  | [] => if b = unlistedByte then [] else [(k, b)]
  | (k', b') :: rest =>
    if k < k' then (if b = unlistedByte then (k', b') :: rest else (k, b) :: (k', b') :: rest)
    else if k = k' then (if b = unlistedByte then rest else (k, b) :: rest)
    else (k', b') :: Memory.write rest k b

/-- `MemRead(space, off, n)` (R14, R52): `n` bytes in ascending offset. -/
def Memory.readBytes (m : Memory) (off : Nat) : Nat → List Byte
  | 0 => []
  | n + 1 => Memory.read m off :: Memory.readBytes m (off + 1) n

/-- `MemWrite(space, off, n, bs)` (R14, R52) with `n = bs.length`. -/
def Memory.writeBytes (m : Memory) (off : Nat) (bs : List Byte) : Memory :=
  match bs with
  | [] => m
  | b :: rest => Memory.writeBytes (Memory.write m off b) (off + 1) rest

/-- Every offset of `m` is above `lo`, offsets rise strictly, and no entry is the byte an unlisted offset reads as. -/
def Memory.risingFrom (lo : Nat) (m : Memory) : Bool :=
  match m with
  | [] => true
  | (k, b) :: rest => decide (lo ≤ k) && b != unlistedByte && Memory.risingFrom (k + 1) rest

/-- The canonical form: offsets strictly rising, no entry equal to what an unlisted offset reads as. -/
def Memory.wf (m : Memory) : Bool := Memory.risingFrom 0 m

/-- Every entry is at an offset of a space of `n` bytes (R50). -/
def Memory.within (m : Memory) (n : Nat) : Bool := m.all (fun cell => decide (cell.1 < n))

/-- What the dispatch map reads of a state (R78). -/
def State.view (s : State) : FeedView := { cfg := s.cfg, state := s.state, idx := s.idx, crcAcc := s.crcAcc }

/-- `state <- S`, the block's only control transfer (R14, R32). -/
def State.setState (s : State) (d : DecState) : State := { s with state := d }

/-- `crc_acc <- v`. -/
def State.setCrcAcc (s : State) (v : Byte) : State := { s with crcAcc := v }

/-- `idx <- n`. -/
def State.setIdx (s : State) (n : Nat) : State := { s with idx := n }

/-- `err_count <- n`. -/
def State.setErrCount (s : State) (n : Nat) : State := { s with errCount := n }

/-- `MemWrite(PB, k, 1, [c])` (R52). -/
def State.storePayload (s : State) (k : Nat) (c : Byte) : State := { s with payloadBuf := Memory.write s.payloadBuf k c }

/-- `return v` at the operation's port (R14). -/
def State.setResult (s : State) (r : Result) : State := { s with result := r }

/-- `MemRead(PB, 0, N_IN)` (R52). -/
def State.payload (s : State) : List Byte := Memory.readBytes s.payloadBuf 0 s.cfg.nIn

/-- The three words delivered with an emitted payload: present when `N_IN ≥ 12` (R170, R172). -/
def wordsOf (cfg : Config) (payload : List Byte) : Option Words :=
  if 12 ≤ cfg.nIn then unpack3 cfg.byteOrder payload else none

/-- `raise E()` with what the condition changes, the block's whole analogue of taking an exception (R190 to R192, R198).
FramingMismatch changes nothing; ChecksumMismatch counts, saturating, and puts the decoder in `Idle`.
Nothing is saved and no control goes anywhere, so there is no return from it: the decoder is already in the state that
awaits the next start byte (R199). -/
def State.raise (s : State) (e : ErrorCondition) : State :=
  match e with
  | .framingMismatch => s
  | .checksumMismatch => (s.setErrCount (satInc s.cfg.errW s.errCount)).setState .idle

/-- The code of a decoder state on the 2-bit status output (R39). -/
def stateCode (d : DecState) : BitVec 2 :=
  match d with
  | .idle => 0#2
  | .awaitingPayload => 1#2
  | .awaitingCrc => 2#2

/-- The read-only status output `state` (R38, R177). -/
def State.statusState (s : State) : BitVec 2 := stateCode s.state

/-- The read-only status output `err_count` (R29, R38, R175). -/
def State.statusErrCount (s : State) : Nat := s.errCount

end Sys2Proof.Machine
end

