-- ==== Sys2Proof/Machine/Control.lean ====
section
/-! DEFINITION. What surrounds the decoder's state machine (43_decoder_outputs_and_control.md): `DEC.UNPACK`, `DEC.RESET`,
`ERR.READ`. -/

namespace Sys2Proof.Machine

/-- `DEC.UNPACK` (R171): three words from a payload of `N_IN` bytes; the operation does not exist when `N_IN < 12` (R172).
No state is read or written. -/
def execDecUnpack (payload : List Byte) (s : State) : Host.Outcome State Fault Refusal :=
  if s.cfg.nIn < 12 then .refused .unpackAbsent
  else if payload.length = s.cfg.nIn then
    match unpack3 s.cfg.byteOrder payload with
    | some w => .next (s.setResult (.words w))
    | none => .refused .operandLength
  else .refused .operandLength

/-- `DEC.RESET` (R174): `state` becomes `Idle` and nothing else changes; there is no result. -/
def execDecReset (s : State) : Host.Outcome State Fault Refusal :=
  .next ((s.setState .idle).setResult .none)

/-- `ERR.READ` (R175): the result is `err_count`; the read changes nothing. -/
def execErrRead (s : State) : Host.Outcome State Fault Refusal :=
  .next (s.setResult (.count s.statusErrCount))

end Sys2Proof.Machine
end

