-- ==== Sys2Proof/Machine/Crc.lean ====
section
/-! DEFINITION. The CRC-8 engine: one shift, the step `update`, the fold over a byte sequence (40_crc8_engine.md R100, R103),
and the meaning of `CRC.UPDATE`. -/

namespace Sys2Proof.Machine

/-- One iteration of the loop of R100: bit 7 is tested before the shift, and selects whether the polynomial is XORed in. -/
def crcShift (v : Byte) : Byte := if v.getLsbD 7 then (v <<< 1) ^^^ crcPoly else v <<< 1

/-- `n` iterations of the loop of R100. -/
def crcShifts (n : Nat) (v : Byte) : Byte :=
  match n with
  | 0 => v
  | k + 1 => crcShifts k (crcShift v)

/-- `update(crc, data)` (R100). -/
def update (crc data : Byte) : Byte := crcShifts crcIter (crc ^^^ data)

/-- `fold(init, bs)` (R103): `update` over the bytes in ascending offset. -/
def fold (init : Byte) (bs : List Byte) : Byte :=
  match bs with
  | [] => init
  | b :: rest => fold (update init b) rest

/-- `crc_of(bs) = fold(CRC_INIT, bs)` (R82). -/
def crcOf (cfg : Config) (bs : List Byte) : Byte := fold cfg.crcInit bs

/-- `CRC.UPDATE` (R100): the result is `update(crc, data)`; no state is read or written. -/
def execCrcUpdate (crc data : Byte) (s : State) : Host.Outcome State Fault Refusal :=
  .next (s.setResult (.crcOut (update crc data)))

end Sys2Proof.Machine
end

