-- ==== Sys2Proof/Machine/Encoder.lean ====
section
/-! DEFINITION. The frame encoder (41_frame_encoder.md R120): the frame is built in the byte space `OF`, a value of the
operation and no register of the block (R27). -/

namespace Sys2Proof.Machine

/-- The bytes of `OF` at offsets 0 to 12 (R120, R53): start byte and the three packed words. -/
def encodeBody (cfg : Config) (x y z : Word32) : Memory :=
  Memory.writeBytes
    (Memory.writeBytes
      (Memory.writeBytes (Memory.writeBytes [] 0 [cfg.outStartByte]) 1 (pack32 cfg.byteOrder x))
      5 (pack32 cfg.byteOrder y))
    9 (pack32 cfg.byteOrder z)

/-- `encode(x, y, z)` (R120): the CRC of offsets 0 to 12 is written at offset 13. -/
def encodeFrame (cfg : Config) (x y z : Word32) : List Byte :=
  Memory.readBytes
    (Memory.writeBytes (encodeBody cfg x y z) 13 [fold cfg.crcInit (Memory.readBytes (encodeBody cfg x y z) 0 13)])
    0 outFrameLen

/-- `ENC.ENCODE` (R120): the result is the 14-byte frame; no state is read or written. -/
def execEncEncode (x y z : Word32) (s : State) : Host.Outcome State Fault Refusal :=
  .next (s.setResult (.frame (encodeFrame s.cfg x y z)))

end Sys2Proof.Machine
end

