-- ==== Sys2Proof/Machine/Feed.lean ====
section
/-! DEFINITION. The frame decoder (42_frame_decoder.md): what each of the six rows of `DEC.FEED` does to the registers and
returns, `DEC.FEED` as one operation, its fold over a byte sequence, and the meanings of the rows. -/

namespace Sys2Proof.Machine

/-- `FEED.IDLE.START` (R141): the fold restarts with the start byte, the index at 0. -/
def feedIdleStart (c : Byte) (s : State) : State × FeedResult :=
  (((s.setCrcAcc (update s.cfg.crcInit c)).setIdx 0).setState .awaitingPayload, .nothing)

/-- `FEED.IDLE.SKIP` (R142): an occurrence of FramingMismatch, which changes nothing (R191). -/
def feedIdleSkip (_c : Byte) (s : State) : State × FeedResult :=
  (s.raise .framingMismatch, .nothing)

/-- `FEED.PAYLOAD.MORE` (R143): fold the byte, store it at the index held before, advance the index. -/
def feedPayloadMore (c : Byte) (s : State) : State × FeedResult :=
  ((((s.setCrcAcc (update s.crcAcc c)).storePayload s.idx c).setIdx (s.idx + 1)).setState .awaitingPayload, .nothing)

/-- `FEED.PAYLOAD.LAST` (R144): as `FEED.PAYLOAD.MORE`, and the next byte is the CRC. -/
def feedPayloadLast (c : Byte) (s : State) : State × FeedResult :=
  ((((s.setCrcAcc (update s.crcAcc c)).storePayload s.idx c).setIdx (s.idx + 1)).setState .awaitingCrc, .nothing)

/-- `FEED.CRC.OK` (R145): back to `Idle`, and the whole buffer is emitted, with the three words when there are any (R170). -/
def feedCrcOk (_c : Byte) (s : State) : State × FeedResult :=
  (s.setState .idle, .emit s.payload (wordsOf s.cfg s.payload))

/-- `FEED.CRC.BAD` (R146): an occurrence of ChecksumMismatch (R192, R198). -/
def feedCrcBad (_c : Byte) (s : State) : State × FeedResult :=
  (s.raise .checksumMismatch, .mismatch)

/-- What row `r` does. -/
def rowEffect (r : FeedRow) (c : Byte) (s : State) : State × FeedResult :=
  match r with
  | .idleStart => feedIdleStart c s
  | .idleSkip => feedIdleSkip c s
  | .payloadMore => feedPayloadMore c s
  | .payloadLast => feedPayloadLast c s
  | .crcOk => feedCrcOk c s
  | .crcBad => feedCrcBad c s

/-- `DEC.FEED` (R140): the one row that the dispatch map selects. Nothing where no row applies, which no run reaches. -/
def feedByte (c : Byte) (s : State) : Option (State × FeedResult) :=
  match selectRow s.view c with
  | some r => some (rowEffect r c s)
  | none => none

/-- `feed_all` (R82): one `DEC.FEED` per byte, in order, with the result of each. -/
def feedAll (bs : List Byte) (s : State) : Option (State × List FeedResult) :=
  match bs with
  | [] => some (s, [])
  | c :: rest =>
    match feedByte c s with
    | none => none
    | some (t, r) =>
      match feedAll rest t with
      | none => none
      | some (u, rs) => some (u, r :: rs)

/-- A row as an operation of its own: where its condition of R78 holds it has its effect and returns its result. -/
def execRow (r : FeedRow) (c : Byte) (s : State) : Host.Outcome State Fault Refusal :=
  if rowCondition r s.view c then .next ((rowEffect r c s).1.setResult (.feed (rowEffect r c s).2))
  else .refused .rowNotSelected

/-- `FEED.IDLE.START` (R141). -/
def execFeedIdleStart (c : Byte) (s : State) : Host.Outcome State Fault Refusal := execRow .idleStart c s

/-- `FEED.IDLE.SKIP` (R142). -/
def execFeedIdleSkip (c : Byte) (s : State) : Host.Outcome State Fault Refusal := execRow .idleSkip c s

/-- `FEED.PAYLOAD.MORE` (R143). -/
def execFeedPayloadMore (c : Byte) (s : State) : Host.Outcome State Fault Refusal := execRow .payloadMore c s

/-- `FEED.PAYLOAD.LAST` (R144). -/
def execFeedPayloadLast (c : Byte) (s : State) : Host.Outcome State Fault Refusal := execRow .payloadLast c s

/-- `FEED.CRC.OK` (R145). -/
def execFeedCrcOk (c : Byte) (s : State) : Host.Outcome State Fault Refusal := execRow .crcOk c s

/-- `FEED.CRC.BAD` (R146). -/
def execFeedCrcBad (c : Byte) (s : State) : Host.Outcome State Fault Refusal := execRow .crcBad c s

end Sys2Proof.Machine
end

