-- ==== Sys2Proof/Machine/Wire.lean ====
section
/-! DEFINITION. The two wire-format rows of the table. The spec calls them formats and no operations (R17); what the block does
with a frame on the wire is to consume its bytes in ascending offset, one `DEC.FEED` each (R59, R60, R82), and that is
their meaning here (notes/assumptions/4.md). -/

namespace Sys2Proof.Machine

/-- `make_in_frame(p)` (R82): start byte, payload, and the CRC of the bytes before it, for `p` of `N_IN` bytes. -/
def makeInFrame (cfg : Config) (p : List Byte) : List Byte := inFrameBytes cfg p (crcOf cfg (cfg.inStartByte :: p))

/-- Feed a byte sequence: the state after the last `DEC.FEED`, and the result of each. -/
def execFeedAll (bs : List Byte) (s : State) : Host.Outcome State Fault Refusal :=
  match feedAll bs s with
  | some (t, rs) => .next (t.setResult (.feedAll rs))
  | none => .refused .noRow

/-- `FRAME.OUT14` (R71): the fourteen bytes of an outbound frame arrive at the byte port, as in the loopback of R128 and in
the vectors V-DEC-7 and V-DEC-9b. -/
def execFrameOut14 (x y z : Word32) (crc : Byte) (s : State) : Host.Outcome State Fault Refusal :=
  execFeedAll (outFrameBytes s.cfg x y z crc) s

/-- `FRAME.IN` (R72): the bytes of an inbound frame arrive at the byte port. -/
def execFrameIn (payload : List Byte) (crc : Byte) (s : State) : Host.Outcome State Fault Refusal :=
  execFeedAll (inFrameBytes s.cfg payload crc) s

end Sys2Proof.Machine
end

