-- ==== Sys2Proof/Machine/Dispatch.lean ====
section
/-! DEFINITION. One arm per row of spec/opcode_table.json. -/

namespace Sys2Proof.Machine

def exec (i : Instr) (s : State) : Host.Outcome State Fault Refusal :=
  match i with
  | .crcUpdate crc data => Sys2Proof.Machine.execCrcUpdate crc data s
  | .encEncode x y z => Sys2Proof.Machine.execEncEncode x y z s
  | .feedIdleStart c => Sys2Proof.Machine.execFeedIdleStart c s
  | .feedIdleSkip c => Sys2Proof.Machine.execFeedIdleSkip c s
  | .feedPayloadMore c => Sys2Proof.Machine.execFeedPayloadMore c s
  | .feedPayloadLast c => Sys2Proof.Machine.execFeedPayloadLast c s
  | .feedCrcOk c => Sys2Proof.Machine.execFeedCrcOk c s
  | .feedCrcBad c => Sys2Proof.Machine.execFeedCrcBad c s
  | .decUnpack payload => Sys2Proof.Machine.execDecUnpack payload s
  | .decReset => Sys2Proof.Machine.execDecReset s
  | .errRead => Sys2Proof.Machine.execErrRead s
  | .frameOut14 x y z crc => Sys2Proof.Machine.execFrameOut14 x y z crc s
  | .frameIn payload crc => Sys2Proof.Machine.execFrameIn payload crc s

end Sys2Proof.Machine
end

