-- ==== Sys2Proof/Machine/Ports.lean ====
section
/-! DEFINITION. The environment's side: issuing operations, requests that arrive together (60_exceptions.md R197), the fetch of
the next one, and what happens when there is none; configuring a block (R10, R207 (c)). -/

namespace Sys2Proof.Machine

/-- Requests strobed together at the ports of one block; a port that is not strobed is `none` or `false`. -/
structure Together where
  crc : Option (Byte × Byte)
  enc : Option (Word32 × Word32 × Word32)
  unpack : Option (List Byte)
  errRead : Bool
  feed : Option Byte
  reset : Bool
deriving DecidableEq, Repr

/-- The order in which requests that arrive together are performed (R197): `ERR.READ` before the `DEC.FEED`, the `DEC.FEED`
before the `DEC.RESET`; the pure operations need no order and come first. -/
def Together.ordered (t : Together) : List Request :=
  (t.crc.map (fun p => ({ port := .crc, operand := [p.1, p.2] } : Request))).toList ++
  (t.enc.map (fun p => ({ port := .enc, operand := numericBytes p.1 ++ numericBytes p.2.1 ++ numericBytes p.2.2 } :
    Request))).toList ++
  (t.unpack.map (fun p => ({ port := .unpack, operand := p } : Request))).toList ++
  (if t.errRead then [{ port := .errRead, operand := [] }] else []) ++
  (t.feed.map feedRequest).toList ++
  (if t.reset then [{ port := .reset, operand := [] }] else [])

/-- The environment issues requests: they are performed after those it issued before (R60). -/
def State.issue (s : State) (rs : List Request) : State := { s with script := s.script ++ rs }

/-- The next request to perform, and the state with it taken off the script. -/
def State.fetch (s : State) : Option (Request × State) :=
  match s.script with
  | [] => none
  | r :: rest => some (r, { s with script := rest })

/-- No request: the block holds its registers (R206), and no result is shown, since a result lasts for the one operation
that produced it (R178, R196). -/
def State.hold (s : State) : State := s.setResult .none

/-- `s` with the table word of `nbits` bits put first in the script, where the next step fetches (notes/assumptions/5.md). -/
def State.placeTableWord (s : State) (nbits w : Nat) : State :=
  { s with script := tableRequest s.cfg nbits w :: s.script }

/-- Configuring a block (R10, R207 (c)): `CRC_POLY` and `CRC_ITER` may not be changed and `N_IN` is at least 1. -/
def configure (raw : RawConfig) : Except ConfigRefusal Config :=
  if raw.crcPoly ≠ crcPoly then .error .polynomial
  else if raw.crcIter ≠ crcIter then .error .iterations
  else if h : 1 ≤ raw.nIn then
    .ok { crcInit := raw.crcInit, outStartByte := raw.outStartByte, inStartByte := raw.inStartByte, nIn := raw.nIn,
          byteOrder := raw.byteOrder, errW := raw.errW, nIn_pos := h }
  else .error .zeroPayload

end Sys2Proof.Machine
end

