-- ==== Sys2Proof/Machine/Step.lean ====
section
/-! DEFINITION. One step: the next operation of the script, decoded in the registers it finds and performed whole (R8, R60). -/

namespace Sys2Proof.Machine

/-- One step of the block. With nothing to perform it holds its state (R206, R234). -/
def step (s : State) : Host.Outcome State Fault Refusal :=
  match s.fetch with
  | none => .next s.hold
  | some (r, s1) =>
    match decode s1.view r with
    | .ok i => exec i s1
    | .error why => .refused (.rejected why)

/-- `s` with the table word stored where the next step fetches. -/
def State.withFetchWord (s : State) (nbits w : Nat) : State := s.placeTableWord nbits w

end Sys2Proof.Machine
end

