-- ==== Sys2Proof/Certificates/Slice0/Obligations.lean ====
section
/-! DEFINITION. The statements about the model, one `def Obligations.<Name> : Prop` each; OBLIGATIONS.json says of each which
rules of spec/ it rests on. -/

open Sys2Proof Sys2Proof.Machine

/-! The CRC-8 engine (40_crc8_engine.md). -/

/-- R100: the result of `CRC.UPDATE` is the loop's `v8`, written out shift by shift; nothing else changes. -/
def Obligations.CrcUpdateReturnsTheEightShiftResult : Prop :=
  ∀ (crc data : Byte) (s : State),
    let next : Byte → Byte := fun v =>
      if v[7] = true then ((v <<< 1) &&& 0xFF#8) ^^^ 0x07#8 else (v <<< 1) &&& 0xFF#8
    let v0 := crc ^^^ data
    let v1 := next v0
    let v2 := next v1
    let v3 := next v2
    let v4 := next v3
    let v5 := next v4
    let v6 := next v5
    let v7 := next v6
    let v8 := next v7
    exec (.crcUpdate crc data) s = .next { s with result := .crcOut v8 }

/-- R106: the printed table, and the eight bit equations. -/
def Obligations.CrcUpdateAgreesWithTableAndBitEquations : Prop :=
  crcTable.length = 256 ∧
  ∀ crc data : Byte,
    let v := crc ^^^ data
    let o := update crc data
    crcTable[v.toNat]? = some o ∧
    o[7] = (v[7] ^^ v[6] ^^ v[5]) ∧
    o[6] = (v[6] ^^ v[5] ^^ v[4]) ∧
    o[5] = (v[5] ^^ v[4] ^^ v[3]) ∧
    o[4] = (v[4] ^^ v[3] ^^ v[2]) ∧
    o[3] = (v[7] ^^ v[3] ^^ v[2] ^^ v[1]) ∧
    o[2] = (v[6] ^^ v[2] ^^ v[1] ^^ v[0]) ∧
    o[1] = (v[6] ^^ v[1] ^^ v[0]) ∧
    o[0] = (v[7] ^^ v[6] ^^ v[0])

/-- R107 (a) to (c): linearity, bijectivity in each operand, self-cancellation. -/
def Obligations.CrcUpdateIsLinearBijectiveSelfCancelling : Prop :=
  (∀ a b : Byte, update 0x00#8 (a ^^^ b) = update 0x00#8 a ^^^ update 0x00#8 b) ∧
  update 0x00#8 0x00#8 = 0x00#8 ∧
  (∀ data : Byte, Function.Bijective (fun crc : Byte => update crc data)) ∧
  (∀ crc : Byte, Function.Bijective (fun data : Byte => update crc data)) ∧
  (∀ c : Byte, update c c = 0x00#8)

/-- R107 (d), (e): the residue of a sequence followed by its own CRC, and what the initial value contributes. -/
def Obligations.CrcFoldResidueAndInitialValue : Prop :=
  (∀ (init : Byte) (bs : List Byte), fold init (bs ++ [fold init bs]) = 0x00#8) ∧
  (∀ (init : Byte) (bs : List Byte),
    fold init bs = fold 0x00#8 bs ^^^ fold init (List.replicate bs.length 0x00#8)) ∧
  (∀ n : Nat, fold 0x00#8 (List.replicate n 0x00#8) = 0x00#8)

/-- R107 (f), (g): every change of one byte changes the CRC; a change of two neighbouring bytes by `d` and `T[d]` does not. -/
def Obligations.CrcFoldDetectsOneByteAndMissesMatchedTwo : Prop :=
  (∀ (init : Byte) (before after : List Byte) (b b' : Byte), b ≠ b' →
    fold init (before ++ b :: after) ≠ fold init (before ++ b' :: after)) ∧
  (∀ (init : Byte) (before after : List Byte) (b0 b1 d : Byte),
    fold init (before ++ (b0 ^^^ d) :: (b1 ^^^ update 0x00#8 d) :: after) = fold init (before ++ b0 :: b1 :: after))

/-! The frame encoder (41_frame_encoder.md) and the 32-bit fields (20_memory.md). -/

/-- R120: the frame is start byte, three packed words, and the fold of those thirteen bytes; nothing else changes. -/
def Obligations.EncodeReturnsStartWordsAndCrc : Prop :=
  ∀ (x y z : Word32) (s : State),
    let body := [s.cfg.outStartByte] ++ pack32 s.cfg.byteOrder x ++ pack32 s.cfg.byteOrder y ++ pack32 s.cfg.byteOrder z
    exec (.encEncode x y z) s = .next { s with result := .frame (body ++ [fold s.cfg.crcInit body]) }

/-- R121, R122: for every operand triple the encoder completes with a frame of exactly 14 bytes, a valid outbound frame, whose
last byte is the CRC of the bytes before it and not of itself. -/
def Obligations.EncodeAlwaysYieldsAValidFourteenByteFrame : Prop :=
  ∀ (x y z : Word32) (s : State), ∃ f : List Byte,
    exec (.encEncode x y z) s = .next { s with result := .frame f } ∧
    f.length = 14 ∧ validOutFrame s.cfg f = true ∧ f.getLast? = some (fold s.cfg.crcInit f.dropLast)

/-- R123: the CRC byte covers the thirteen bytes at offsets 0 to 12 from `CRC_INIT`, and another start byte gives every frame
another CRC. -/
def Obligations.EncodeCrcCoversStartByteAndPayload : Prop :=
  ∀ (cfg : Config) (x y z : Word32) (b : Byte),
    (encodeFrame cfg x y z)[13]? = some (fold cfg.crcInit ((encodeFrame cfg x y z).take 13)) ∧
    (b ≠ cfg.outStartByte →
      (encodeFrame { cfg with outStartByte := b } x y z)[13]? ≠ (encodeFrame cfg x y z)[13]?)

/-- R127: the encoder is injective, each field unpacks to its word, and the byte order moves bytes only inside a field. -/
def Obligations.EncodeIsInjectiveAndKeepsEveryWord : Prop :=
  (∀ (cfg : Config) (x y z x' y' z' : Word32),
    encodeFrame cfg x y z = encodeFrame cfg x' y' z' → x = x' ∧ y = y' ∧ z = z') ∧
  (∀ (cfg : Config) (x y z : Word32),
    let f := encodeFrame cfg x y z
    ∃ b1 b2 b3 b4 b5 b6 b7 b8 b9 b10 b11 b12 : Byte,
      (f.drop 1).take 12 = [b1, b2, b3, b4, b5, b6, b7, b8, b9, b10, b11, b12] ∧
      unpack32 cfg.byteOrder b1 b2 b3 b4 = x ∧
      unpack32 cfg.byteOrder b5 b6 b7 b8 = y ∧
      unpack32 cfg.byteOrder b9 b10 b11 b12 = z) ∧
  (∀ (cfg : Config) (x y z : Word32),
    let fl := encodeFrame { cfg with byteOrder := .le } x y z
    let fb := encodeFrame { cfg with byteOrder := .be } x y z
    fb[0]? = fl[0]? ∧
    (fb.drop 1).take 4 = ((fl.drop 1).take 4).reverse ∧
    (fb.drop 5).take 4 = ((fl.drop 5).take 4).reverse ∧
    (fb.drop 9).take 4 = ((fl.drop 9).take 4).reverse)

/-- R173: unpacking what was packed, and unpacking the encoder's own frame, give the three words back, for every word. -/
def Obligations.UnpackReturnsWhatWasPacked : Prop :=
  ∀ (cfg : Config) (x y z : Word32),
    unpack3 cfg.byteOrder (pack32 cfg.byteOrder x ++ pack32 cfg.byteOrder y ++ pack32 cfg.byteOrder z) =
      some { roll := x, pitch := y, yaw := z } ∧
    decodePayload cfg.byteOrder (stripCrc (encodeFrame cfg x y z)) = some { roll := x, pitch := y, yaw := z }

/-- R55: the four bytes of a field under either order, the word of four bytes under either order, each the other's inverse;
the default order is `LE`. -/
def Obligations.PackAndUnpackAreInverseInEitherOrder : Prop :=
  (∀ w : Word32, pack32 .le w = [w.extractLsb' 0 8, w.extractLsb' 8 8, w.extractLsb' 16 8, w.extractLsb' 24 8]) ∧
  (∀ w : Word32, pack32 .be w = [w.extractLsb' 24 8, w.extractLsb' 16 8, w.extractLsb' 8 8, w.extractLsb' 0 8]) ∧
  (∀ b0 b1 b2 b3 : Byte, unpack32 .le b0 b1 b2 b3 = b3 ++ b2 ++ b1 ++ b0) ∧
  (∀ b0 b1 b2 b3 : Byte, unpack32 .be b0 b1 b2 b3 = b0 ++ b1 ++ b2 ++ b3) ∧
  (∀ (o : ByteOrder) (w : Word32), ∃ b0 b1 b2 b3 : Byte, pack32 o w = [b0, b1, b2, b3] ∧ unpack32 o b0 b1 b2 b3 = w) ∧
  (∀ (o : ByteOrder) (b0 b1 b2 b3 : Byte), pack32 o (unpack32 o b0 b1 b2 b3) = [b0, b1, b2, b3]) ∧
  defaultByteOrder = .le

/-! The six rows of `DEC.FEED` (42_frame_decoder.md): each completes wherever its condition holds. -/

/-- R141. -/
def Obligations.FeedIdleStartBeginsAFrame : Prop :=
  ∀ (c : Byte) (s : State), s.state = .idle → c = s.cfg.inStartByte →
    exec (.feedIdleStart c) s =
      .next { s with
        crcAcc := update s.cfg.crcInit c, idx := 0, state := .awaitingPayload, result := .feed .nothing }

/-- R142. -/
def Obligations.FeedIdleSkipWritesNoRegister : Prop :=
  ∀ (c : Byte) (s : State), s.state = .idle → c ≠ s.cfg.inStartByte →
    exec (.feedIdleSkip c) s = .next { s with result := .feed .nothing }

/-- R143. -/
def Obligations.FeedPayloadMoreFoldsStoresAdvances : Prop :=
  ∀ (c : Byte) (s : State), s.state = .awaitingPayload → s.idx + 1 < s.cfg.nIn →
    exec (.feedPayloadMore c) s =
      .next { s with
        crcAcc := update s.crcAcc c
        payloadBuf := Memory.write s.payloadBuf s.idx c
        idx := s.idx + 1
        state := .awaitingPayload
        result := .feed .nothing }

/-- R144. -/
def Obligations.FeedPayloadLastFoldsStoresAndAwaitsCrc : Prop :=
  ∀ (c : Byte) (s : State), s.state = .awaitingPayload → s.idx + 1 = s.cfg.nIn →
    exec (.feedPayloadLast c) s =
      .next { s with
        crcAcc := update s.crcAcc c
        payloadBuf := Memory.write s.payloadBuf s.idx c
        idx := s.cfg.nIn
        state := .awaitingCrc
        result := .feed .nothing }

/-- R145, with the words of R170. -/
def Obligations.FeedCrcOkEmitsTheBuffer : Prop :=
  ∀ (c : Byte) (s : State), s.state = .awaitingCrc → c = s.crcAcc →
    exec (.feedCrcOk c) s =
      .next { s with
        state := .idle
        result := .feed (.emit (Memory.readBytes s.payloadBuf 0 s.cfg.nIn)
          (if 12 ≤ s.cfg.nIn then unpack3 s.cfg.byteOrder (Memory.readBytes s.payloadBuf 0 s.cfg.nIn) else none)) }

/-- R146, R198. -/
def Obligations.FeedCrcBadCountsAndReturnsToIdle : Prop :=
  ∀ (c : Byte) (s : State), s.state = .awaitingCrc → c ≠ s.crcAcc →
    exec (.feedCrcBad c) s =
      .next { s with
        state := .idle
        errCount :=
          (match s.cfg.errW with
            | .bits w => min (s.errCount + 1) (2 ^ w - 1)
            | .inf => s.errCount + 1)
        result := .feed .mismatch }

/-- The model's choice (notes/assumptions/6.md): a row asked for where its condition of R78 does not hold is refused by name. -/
def Obligations.FeedRowIsRefusedWhereItIsNotTheRow : Prop :=
  ∀ (r : FeedRow) (c : Byte) (s : State), rowCondition r s.view c = false →
    exec (feedInstr r c) s = .refused .rowNotSelected

/-- R78: the dispatch map, row by row, is a total function on the states that have room for a payload byte; with `N_IN = 1`
`FEED.PAYLOAD.MORE` never applies. -/
def Obligations.DispatchMapSelectsExactlyOneRow : Prop :=
  ∀ (s : State) (c : Byte), CanTakeByte s →
    let d := decode s.view (feedRequest c)
    (d = .ok (.feedIdleStart c) ↔ s.state = .idle ∧ c = s.cfg.inStartByte) ∧
    (d = .ok (.feedIdleSkip c) ↔ s.state = .idle ∧ c ≠ s.cfg.inStartByte) ∧
    (d = .ok (.feedPayloadMore c) ↔ s.state = .awaitingPayload ∧ s.idx + 1 < s.cfg.nIn) ∧
    (d = .ok (.feedPayloadLast c) ↔ s.state = .awaitingPayload ∧ s.idx + 1 = s.cfg.nIn) ∧
    (d = .ok (.feedCrcOk c) ↔ s.state = .awaitingCrc ∧ c = s.crcAcc) ∧
    (d = .ok (.feedCrcBad c) ↔ s.state = .awaitingCrc ∧ c ≠ s.crcAcc) ∧
    (∃ r : FeedRow, d = .ok (feedInstr r c)) ∧
    (s.cfg.nIn = 1 → d ≠ .ok (.feedPayloadMore c))

/-- R156: a step that finds a byte at the decoder's port is the whole-machine function of R156. -/
def Obligations.FeedStepIsTheWholeMachineFunction : Prop :=
  ∀ (s : State) (c : Byte) (rest : List Request), CanTakeByte s → s.script = feedRequest c :: rest →
    let out := feedWhole { s with script := rest } c
    step s = .next { out.1 with result := .feed out.2 }

/-- R149: the byte in the CRC position starts no frame, whatever its value; the byte that starts a frame is not stored. -/
def Obligations.EveryByteIsUsedOnce : Prop :=
  (∀ (s : State) (c : Byte), s.state = .awaitingCrc → ∃ t r, feedByte c s = some (t, r) ∧ t.state = .idle ∧
    ∀ d, d ≠ s.cfg.inStartByte → feedAll [c, d] s = some (t, [r, .nothing])) ∧
  (∀ (s : State) (c : Byte), s.state = .idle → c = s.cfg.inStartByte →
    ∃ t, feedByte c s = some (t, .nothing) ∧ t.idx = 0 ∧ t.payloadBuf = s.payloadBuf)

/-- R190 to R192: an operation that is an occurrence of an error condition and goes on changes exactly what raising that
condition changes, and its result. -/
def Obligations.ErrorConditionsChangeOnlyWhatTheyRaise : Prop :=
  ∀ (i : Instr) (e : ErrorCondition) (s t : State), conditionOf i = some e → exec i s = .next t →
    t = { s.raise e with result := t.result } ∧
    (e = .framingMismatch → t = { s with result := .feed .nothing }) ∧
    (e = .checksumMismatch →
      t = { s with state := .idle, errCount := satInc s.cfg.errW s.errCount, result := .feed .mismatch })

/-! Frames: what each operation leaves unchanged. -/

/-- The pure operations change nothing but their result. -/
def Obligations.PureOperationsChangeOnlyTheirResult : Prop :=
  ∀ (i : Instr) (s t : State), isPure i = true → exec i s = .next t → t = { s with result := t.result }

/-- The payload rows write `crc_acc`, `idx`, `state` and one byte of the payload buffer, at the index held before; every other
byte reads as before, and `err_count` and the configuration are unchanged. -/
def Obligations.PayloadRowsStoreOneByteAtTheIndex : Prop :=
  ∀ (c : Byte) (s t : State), Memory.wf s.payloadBuf = true →
    (exec (.feedPayloadMore c) s = .next t ∨ exec (.feedPayloadLast c) s = .next t) →
    Memory.read t.payloadBuf s.idx = c ∧
    (∀ a, a ≠ s.idx → Memory.read t.payloadBuf a = Memory.read s.payloadBuf a) ∧
    Memory.wf t.payloadBuf = true ∧
    t.errCount = s.errCount ∧ t.cfg = s.cfg ∧ t.script = s.script

/-- The rows that store nothing and `DEC.RESET` leave every byte of the payload buffer; what else each leaves. -/
def Obligations.NonStoringOperationsKeepTheBuffer : Prop :=
  ∀ (c : Byte) (s t : State),
    ((exec (.feedIdleStart c) s = .next t ∨ exec (.feedIdleSkip c) s = .next t ∨ exec (.feedCrcOk c) s = .next t ∨
        exec (.feedCrcBad c) s = .next t ∨ exec .decReset s = .next t) →
      (∀ a, Memory.read t.payloadBuf a = Memory.read s.payloadBuf a) ∧ t.cfg = s.cfg ∧ t.script = s.script) ∧
    ((exec (.feedIdleSkip c) s = .next t ∨ exec (.feedCrcOk c) s = .next t ∨ exec (.feedCrcBad c) s = .next t ∨
        exec .decReset s = .next t) →
      t.crcAcc = s.crcAcc ∧ t.idx = s.idx) ∧
    ((exec (.feedIdleStart c) s = .next t ∨ exec (.feedIdleSkip c) s = .next t ∨ exec (.feedCrcOk c) s = .next t ∨
        exec .decReset s = .next t) →
      t.errCount = s.errCount)

/-- A whole frame fed byte by byte writes no byte outside the payload buffer's `N_IN` cells, and neither the configuration nor
the script. -/
def Obligations.FrameRowsWriteOnlyThePayloadBuffer : Prop :=
  ∀ (i : Instr) (s t : State), (∃ x y z crc, i = .frameOut14 x y z crc) ∨ (∃ p crc, i = .frameIn p crc) →
    exec i s = .next t →
    (∀ a, s.cfg.nIn ≤ a → Memory.read t.payloadBuf a = Memory.read s.payloadBuf a) ∧
    t.cfg = s.cfg ∧ t.script = s.script

/-! The operations around the decoder (43_decoder_outputs_and_control.md). -/

/-- R170: an emitted payload comes with the words of `DEC.UNPACK` on it when `N_IN ≥ 12`, and without words otherwise. -/
def Obligations.EmissionCarriesTheUnpackedWords : Prop :=
  ∀ (c : Byte) (s : State), s.state = .awaitingCrc → c = s.crcAcc →
    (12 ≤ s.cfg.nIn → ∃ w : Words,
      exec (.feedCrcOk c) s = .next { s with state := .idle, result := .feed (.emit s.payload (some w)) } ∧
      exec (.decUnpack s.payload) s = .next { s with result := .words w }) ∧
    (s.cfg.nIn < 12 →
      exec (.feedCrcOk c) s = .next { s with state := .idle, result := .feed (.emit s.payload none) })

/-- R171: the three words at payload offsets 0, 4, 8, whatever follows them. -/
def Obligations.UnpackReadsThreeWordsAtFixedOffsets : Prop :=
  ∀ (b0 b1 b2 b3 b4 b5 b6 b7 b8 b9 b10 b11 : Byte) (more : List Byte) (s : State),
    12 + more.length = s.cfg.nIn →
    exec (.decUnpack (b0 :: b1 :: b2 :: b3 :: b4 :: b5 :: b6 :: b7 :: b8 :: b9 :: b10 :: b11 :: more)) s =
      .next { s with
        result := .words (Words.mk (unpack32 s.cfg.byteOrder b0 b1 b2 b3) (unpack32 s.cfg.byteOrder b4 b5 b6 b7)
          (unpack32 s.cfg.byteOrder b8 b9 b10 b11)) }

/-- R172: below twelve payload bytes `DEC.UNPACK` does not exist; the model refuses it, at the port and as an instruction. -/
def Obligations.UnpackIsAbsentBelowTwelveBytes : Prop :=
  ∀ (p : List Byte) (s : State), s.cfg.nIn < 12 →
    exec (.decUnpack p) s = .refused .unpackAbsent ∧
    decode s.view { port := .unpack, operand := p } = .error .unpackAbsent

/-- R221, R36: in every state the supervisor reset completes, writes `state` and nothing else, and the byte after it is a start
byte or a skipped one. -/
def Obligations.SupervisorResetWritesOnlyState : Prop :=
  ∀ s : State, ∃ t : State, exec .decReset s = .next t ∧ t = { s with state := .idle, result := .none } ∧
    ∀ c : Byte, decode t.view (feedRequest c) =
      .ok (if c = s.cfg.inStartByte then .feedIdleStart c else .feedIdleSkip c)

/-- R175: the read returns the counter and changes nothing, a read after a mismatch returns the incremented value, and no step
ever lowers the counter. -/
def Obligations.ErrReadReturnsTheCounterAndNothingClearsIt : Prop :=
  (∀ s : State, exec .errRead s = .next { s with result := .count s.errCount }) ∧
  (∀ (c : Byte) (s : State), s.state = .awaitingCrc → c ≠ s.crcAcc → ∃ t u : State,
    exec (.feedCrcBad c) s = .next t ∧ exec .errRead t = .next u ∧ u.result = .count (satInc s.cfg.errW s.errCount)) ∧
  (∀ s t : State, countInRange s.cfg.errW s.errCount = true → step s = .next t → s.errCount ≤ t.errCount)

/-- R25: an operation that goes on changes the counter only if it is `FEED.CRC.BAD` (or a whole frame, a sequence of
`DEC.FEED`); `FEED.CRC.BAD` adds exactly one, but for a counter at `2^ERR_W - 1`, which stays there. -/
def Obligations.OnlyAMismatchMovesTheCounter : Prop :=
  (∀ (i : Instr) (s t : State), exec i s = .next t →
    (∀ c, i ≠ .feedCrcBad c) → (∀ x y z crc, i ≠ .frameOut14 x y z crc) → (∀ p crc, i ≠ .frameIn p crc) →
    t.errCount = s.errCount) ∧
  (∀ (c : Byte) (s t : State), exec (.feedCrcBad c) s = .next t →
    (s.cfg.errW = .inf → t.errCount = s.errCount + 1) ∧
    (∀ w, s.cfg.errW = .bits w → s.errCount < 2 ^ w - 1 → t.errCount = s.errCount + 1) ∧
    (∀ w, s.cfg.errW = .bits w → s.errCount = 2 ^ w - 1 → t.errCount = s.errCount))

/-- R176: two machines that differ only in `err_count` do the same for ever: after any number of steps they differ only in
`err_count`, and in the result of an `ERR.READ`. -/
def Obligations.ErrCountNeverAffectsDecoding : Prop :=
  ∀ (k n : Nat) (s t : State), run k s = .next t →
    ∃ (m : Nat) (r : Result),
      run k { s with errCount := n } = .next { t with errCount := m, result := r } ∧
      (r = t.result ∨ ∃ a b, t.result = .count a ∧ r = .count b)

/-- R39, R177: the code of each state on the status output; the code 3 is never shown. -/
def Obligations.StatusOutputShowsTheState : Prop :=
  ∀ s : State,
    (s.state = .idle → s.statusState = 0#2) ∧
    (s.state = .awaitingPayload → s.statusState = 1#2) ∧
    (s.state = .awaitingCrc → s.statusState = 2#2) ∧
    s.statusState ≠ 3#2

/-! Streams: what a sequence of bytes does to the decoder. -/

/-- R155: from `Idle`, a valid inbound frame is emitted on its last byte and on no other, and a sequence of `N_IN + 2` bytes
that begins with the start byte is emitted only if it is a valid inbound frame. -/
def Obligations.ValidFrameFromIdleIsEmittedAndNoOther : Prop :=
  ∀ (s : State) (f : List Byte), s.state = .idle → Memory.wf s.payloadBuf = true →
    (validInFrame s.cfg f = true →
      ∃ t : State,
        feedAll f s =
          some (t, List.replicate (s.cfg.nIn + 1) .nothing ++
            [.emit ((f.drop 1).take s.cfg.nIn) (wordsOf s.cfg ((f.drop 1).take s.cfg.nIn))]) ∧
        t.errCount = s.errCount ∧ t.state = .idle ∧ some t.crcAcc = f[s.cfg.nIn + 1]? ∧ t.idx = s.cfg.nIn) ∧
    (f.length = s.cfg.nIn + 2 → f[0]? = some s.cfg.inStartByte →
      ∀ t rs, feedAll f s = some (t, rs) → (emitted rs = [(f.drop 1).take s.cfg.nIn] ↔ validInFrame s.cfg f = true))

/-- R153: bytes that are not the start byte leave a decoder in `Idle` as it was, and a valid frame after them is emitted. -/
def Obligations.GarbageBeforeAFrameDoesNoHarm : Prop :=
  ∀ (s : State) (g f : List Byte), s.state = .idle → Memory.wf s.payloadBuf = true →
    (∀ b ∈ g, b ≠ s.cfg.inStartByte) → validInFrame s.cfg f = true →
    feedAll g s = some (s, List.replicate g.length .nothing) ∧
    ∃ t : State,
      feedAll (g ++ f) s =
        some (t, List.replicate (g.length + (s.cfg.nIn + 1)) .nothing ++
          [.emit ((f.drop 1).take s.cfg.nIn) (wordsOf s.cfg ((f.drop 1).take s.cfg.nIn))]) ∧
      t.errCount = s.errCount ∧ t.state = .idle

/-- R148: after a start byte exactly `N_IN + 1` further bytes are consumed before another start byte can be accepted: bytes of
any value, the start byte's among them, are stored as payload, nothing is emitted before the last, and that one ends in `Idle`. -/
def Obligations.AFrameOnceStartedTakesItsFixedLength : Prop :=
  ∀ (s : State) (bs : List Byte), s.state = .idle → Memory.wf s.payloadBuf = true → bs.length ≤ s.cfg.nIn →
    ∃ t : State,
      feedAll (s.cfg.inStartByte :: bs) s = some (t, List.replicate (bs.length + 1) .nothing) ∧
      t.state = (if bs.length = s.cfg.nIn then .awaitingCrc else .awaitingPayload) ∧
      t.idx = bs.length ∧ Memory.readBytes t.payloadBuf 0 bs.length = bs ∧ t.errCount = s.errCount ∧
      (bs.length = s.cfg.nIn → ∀ c, ∃ u r, feedByte c t = some (u, r) ∧ u.state = .idle)

/-- R154: in the loopback configuration, from `Idle`, a change of one byte of an encoder's frame (a flip of one bit among them)
at offsets 1 to 13 is counted as one mismatch on the fourteenth byte and nothing is emitted; at offset 0 the first byte is
skipped, nothing is counted and nothing is emitted. -/
def Obligations.OneChangedByteOfAFrameIsNeverEmitted : Prop :=
  ∀ (s : State) (x y z : Word32) (k : Nat) (d : Byte),
    s.state = .idle → Memory.wf s.payloadBuf = true → Loopback s.cfg → d ≠ 0x00#8 →
    let f := (encodeFrame s.cfg x y z).modify k (fun b => b ^^^ d)
    (1 ≤ k → k ≤ 13 → ∃ t : State,
      feedAll f s = some (t, List.replicate 13 .nothing ++ [.mismatch]) ∧
      t.errCount = satInc s.cfg.errW s.errCount ∧ t.state = .idle) ∧
    (k = 0 → ∃ (t : State) (rs : List FeedResult),
      feedAll f s = some (t, rs) ∧ rs = List.replicate 14 .nothing ∧
      feedAll (f.take 1) s = some (s, [.nothing]) ∧ t.errCount = s.errCount)

/-- R128: in the loopback configuration every encoder frame is a valid inbound frame, and feeding it to a decoder in `Idle`
emits its twelve payload bytes and the same three words; when the start bytes differ and no byte of the frame is the inbound
start byte, the decoder ignores it. -/
def Obligations.LoopbackReturnsTheEncodedWords : Prop :=
  ∀ (s : State) (x y z : Word32), s.state = .idle → Memory.wf s.payloadBuf = true →
    let f := encodeFrame s.cfg x y z
    (Loopback s.cfg → validInFrame s.cfg f = true ∧ ∃ t : State,
      feedAll f s =
        some (t, List.replicate 13 .nothing ++
          [.emit ((f.drop 1).take 12) (some { roll := x, pitch := y, yaw := z })]) ∧
      t.state = .idle ∧ t.errCount = s.errCount) ∧
    (s.cfg.inStartByte ≠ s.cfg.outStartByte → (∀ b ∈ f, b ≠ s.cfg.inStartByte) →
      feedAll f s = some (s, List.replicate 14 .nothing))

/-- R83: a sequence is a valid inbound frame exactly when it has the length and the start byte and folds to zero with its CRC
byte; every result of the encoder is a valid outbound frame; in each direction a payload has exactly one valid frame. -/
def Obligations.ValidFramesFoldToZeroAndAreUnique : Prop :=
  (∀ (cfg : Config) (f : List Byte),
    validInFrame cfg f = true ↔
      f.length = cfg.nIn + 2 ∧ f[0]? = some cfg.inStartByte ∧ fold cfg.crcInit f = 0x00#8) ∧
  (∀ (cfg : Config) (f : List Byte),
    validOutFrame cfg f = true ↔ f.length = 14 ∧ f[0]? = some cfg.outStartByte ∧ fold cfg.crcInit f = 0x00#8) ∧
  (∀ (cfg : Config) (x y z : Word32), validOutFrame cfg (encodeFrame cfg x y z) = true) ∧
  (∀ (cfg : Config) (p : List Byte), p.length = cfg.nIn →
    ∃! f : List Byte, validInFrame cfg f = true ∧ (f.drop 1).take cfg.nIn = p) ∧
  (∀ (cfg : Config) (p : List Byte), p.length = 12 →
    ∃! f : List Byte, validOutFrame cfg f = true ∧ (f.drop 1).take 12 = p)

/-! The wire-format rows (notes/assumptions/4.md): a whole frame is its bytes, fed one by one. -/

/-- The model's choice (notes/assumptions/4.md), resting on R82: in every state with room for a payload byte a frame row completes,
with the state and the results that feeding its bytes in order gives. -/
def Obligations.FrameRowsFeedTheirBytes : Prop :=
  (∀ (x y z : Word32) (crc : Byte) (s : State), CanTakeByte s → ∃ (t : State) (rs : List FeedResult),
    feedAll ([s.cfg.outStartByte] ++ pack32 s.cfg.byteOrder x ++ pack32 s.cfg.byteOrder y ++ pack32 s.cfg.byteOrder z ++
      [crc]) s = some (t, rs) ∧
    exec (.frameOut14 x y z crc) s = .next { t with result := .feedAll rs } ∧ rs.length = 14) ∧
  (∀ (p : List Byte) (crc : Byte) (s : State), CanTakeByte s → ∃ (t : State) (rs : List FeedResult),
    feedAll ([s.cfg.inStartByte] ++ p ++ [crc]) s = some (t, rs) ∧
    exec (.frameIn p crc) s = .next { t with result := .feedAll rs } ∧ rs.length = p.length + 2)

/-- The model's choice (notes/assumptions/4.md): an inbound frame from `Idle`, with every register after it, whether its CRC byte
is right or wrong. -/
def Obligations.InboundFrameFromIdleIsEmittedOrCounted : Prop :=
  ∀ (p : List Byte) (crc : Byte) (s : State), s.state = .idle → Memory.wf s.payloadBuf = true → p.length = s.cfg.nIn →
    let good := fold s.cfg.crcInit (s.cfg.inStartByte :: p)
    ∃ t : State,
      exec (.frameIn p crc) s = .next t ∧
      t.state = .idle ∧ t.crcAcc = good ∧ t.idx = s.cfg.nIn ∧
      Memory.readBytes t.payloadBuf 0 s.cfg.nIn = p ∧
      t.errCount = (if crc = good then s.errCount else satInc s.cfg.errW s.errCount) ∧
      t.result = .feedAll (List.replicate (s.cfg.nIn + 1) .nothing ++
        [if crc = good then .emit p (wordsOf s.cfg p) else .mismatch])

/-- R82: `feed_all` is the run of one step per byte: when the bytes stand first in the script, that many steps lead to the same
registers, showing the result of the last byte. -/
def Obligations.FeedingASequenceIsTheRunOfItsSteps : Prop :=
  ∀ (bs : List Byte) (rest : List Request) (s t : State) (rs : List FeedResult),
    feedAll bs { s with script := rest } = some (t, rs) →
    run bs.length { s with script := bs.map feedRequest ++ rest } =
      .next (match rs.getLast? with
        | some r => { t with result := .feed r }
        | none => t)

/-! Steps and runs. -/

/-- A step performs the operation that the head of the script decodes to in the registers found, with that request taken off the
script; a request that is no operation is refused by name; with nothing to perform the registers are held (R206). -/
def Obligations.StepRunsTheDecodedOperation : Prop :=
  (∀ (s : State) (r : Request) (rest : List Request) (i : Instr), s.script = r :: rest → decode s.view r = .ok i →
    step s = exec i { s with script := rest }) ∧
  (∀ (s : State) (r : Request) (rest : List Request) (why : Reject), s.script = r :: rest →
    decode s.view r = .error why → step s = .refused (.rejected why)) ∧
  (∀ s : State, s.script = [] → step s = .next { s with result := .none })

/-- R33 (and R25, R50): the invariant of the reachable states is kept by every step. -/
def Obligations.EveryStepKeepsTheInvariant : Prop :=
  ∀ s t : State, Consistent s → step s = .next t → Consistent t

/-- R34: the invariant holds at power-on, in every configuration and whatever the payload buffer holds, and at the model's
reset state. -/
def Obligations.PowerOnMeetsTheInvariant : Prop :=
  (∀ (cfg : Config) (buf : Memory), Memory.wf buf = true → Memory.within buf cfg.nIn = true →
    Consistent (State.powerOn cfg buf)) ∧
  Consistent State.reset

/-- R34: the registers after power-on, in every configuration. -/
def Obligations.PowerOnLeavesTheStatedValues : Prop :=
  ∀ (cfg : Config) (buf : Memory),
    let s := State.powerOn cfg buf
    s.state = .idle ∧ s.errCount = 0 ∧ s.crcAcc = cfg.crcInit ∧ s.idx = 0 ∧ s.payloadBuf = buf ∧ s.cfg = cfg ∧
    exec .errRead s = .next { s with result := .count 0 } ∧ s.statusState = 0#2

/-- R64: no step changes a constant of the block. -/
def Obligations.ConfigurationNeverChanges : Prop :=
  ∀ (k : Nat) (s t : State), run k s = .next t → t.cfg = s.cfg

/-- R207 (a), (b), R232: every operation that the block has completes: any byte at the decoder's port, and any well-formed
operation that its port would perform. -/
def Obligations.EveryRequestedOperationCompletes : Prop :=
  (∀ (s : State) (c : Byte) (rest : List Request), CanTakeByte s → s.script = feedRequest c :: rest →
    Completes (step s)) ∧
  (∀ (s : State) (i : Instr) (rest : List Request), CanTakeByte s → WellFormed s.cfg i = true →
    Selected s.view i = true → s.script = encode s.cfg i :: rest → Completes (step s))

/-- R151, R61: a frame fed in two parts, with any pure operations between them, leads to the same registers as the frame fed
without a break, and the same result of its last byte. -/
def Obligations.PureOperationsBetweenTwoPartsOfAFrameDoNotShow : Prop :=
  ∀ (s t : State) (as bs : List Byte) (between : List Instr) (rest : List Request),
    (∀ i ∈ between, isPure i = true ∧ WellFormed s.cfg i = true) →
    run (as.length + bs.length) { s with script := as.map feedRequest ++ (bs.map feedRequest ++ rest) } = .next t →
    ∃ r : Result,
      run (as.length + between.length + bs.length)
        { s with script := as.map feedRequest ++ (between.map (encode s.cfg) ++ (bs.map feedRequest ++ rest)) } =
          .next { t with result := r } ∧
      (bs ≠ [] → r = t.result)

/-- An `ERR.READ`, a `DEC.FEED` and a `DEC.RESET` strobed together are performed in that order: the read shows the old count, the
byte has its whole effect and its result, and `state` is `Idle` afterwards.
R197 (b) gives the byte before the reset, R197 (d) the read before a `FEED.CRC.BAD`. That the read comes before every other row
too, where the count is the same on both sides, is the model's choice (notes/assumptions/9.md). -/
def Obligations.RequestsTogetherAreReadFeedReset : Prop :=
  ∀ (s : State) (c : Byte), CanTakeByte s → s.script = [] →
    let both : Together := { crc := none, enc := none, unpack := none, errRead := true, feed := some c, reset := true }
    ∃ (t : State) (r : FeedResult), feedByte c s = some (t, r) ∧
      run 1 (s.issue both.ordered) =
        .next { s with script := [feedRequest c, { port := .reset, operand := [] }], result := .count s.errCount } ∧
      run 2 (s.issue both.ordered) = .next { t with script := [{ port := .reset, operand := [] }], result := .feed r } ∧
      run 3 (s.issue both.ordered) = .next { t with state := .idle, script := [], result := .none }

/-! Encoding. -/

/-- Decoding the request of a well-formed operation, in registers in which its port would perform it, gives it back with every
operand. -/
def Obligations.DecodeReturnsTheEncodedOperation : Prop :=
  ∀ (v : FeedView) (i : Instr), WellFormed v.cfg i = true → Selected v i = true → decode v (encode v.cfg i) = .ok i

/-- Every request that decodes is the request of the operation it decodes to, which is well-formed and is the one its port
performs. -/
def Obligations.EveryDecodedRequestIsTheEncodingOfItsOperation : Prop :=
  ∀ (v : FeedView) (r : Request) (i : Instr), decode v r = .ok i →
    encode v.cfg i = r ∧ WellFormed v.cfg i = true ∧ Selected v i = true

/-- R77: operand vectors written out from the layouts, decoded in the registers after reset of TC1. -/
def Obligations.WrittenOperandVectorsDecode : Prop :=
  decode (resetView Config.tc1) { port := .crc, operand := [0x12#8, 0x34#8] } = .ok (.crcUpdate 0x12#8 0x34#8) ∧
  decode (resetView Config.tc1)
      { port := .enc, operand := [0x3F#8, 0x80#8, 0x00#8, 0x00#8, 0xC0#8, 0x20#8, 0x00#8, 0x00#8, 0x00#8, 0x00#8, 0x00#8,
        0x01#8] } =
    .ok (.encEncode 0x3F800000#32 0xC0200000#32 0x00000001#32) ∧
  decode (resetView Config.tc1) { port := .feed, operand := [0xA5#8] } = .ok (.feedIdleStart 0xA5#8) ∧
  decode (resetView Config.tc1) { port := .feed, operand := [0xA4#8] } = .ok (.feedIdleSkip 0xA4#8) ∧
  decode (resetView Config.tc1) { port := .reset, operand := [] } = .ok .decReset ∧
  decode (resetView Config.tc1) { port := .errRead, operand := [] } = .ok .errRead

/-- R71, R77: the vector of a byte sequence has offset 0 leftmost, and gives its bytes back. -/
def Obligations.OperandVectorHasOffsetZeroLeftmost : Prop :=
  (∀ bs : List Byte, bytesOfVector bs.length (vectorOfBytes bs) = bs) ∧
  (∀ (f : List Byte) (i : Nat), f.length = 14 → i < 14 →
    f[i]? = some (BitVec.ofNat 8 (vectorOfBytes f >>> (104 - 8 * i))))

/-- R10, R207 (c): a configuration is refused when `CRC_POLY` is not `0x07`, when `CRC_ITER` is not 8 and when `N_IN = 0`, and
otherwise is built with the parameters asked for. -/
def Obligations.ConfigurationIsRefusedOrBuiltAsAsked : Prop :=
  ∀ raw : RawConfig,
    (raw.crcPoly ≠ 0x07#8 ∨ raw.crcIter ≠ 8 ∨ raw.nIn = 0 → ∃ why, configure raw = .error why) ∧
    (raw.crcPoly = 0x07#8 → raw.crcIter = 8 → 1 ≤ raw.nIn → ∃ cfg : Config, configure raw = .ok cfg ∧
      cfg.crcInit = raw.crcInit ∧ cfg.outStartByte = raw.outStartByte ∧ cfg.inStartByte = raw.inStartByte ∧
      cfg.nIn = raw.nIn ∧ cfg.byteOrder = raw.byteOrder ∧ cfg.errW = raw.errW)

/-! Result vectors and pseudo-operations (30_encoding.md R77, R82). -/

/-- R77, R71: the result of `DEC.UNPACK` as 96 bits has roll in 95:64, pitch in 63:32, yaw in 31:0, and nothing else; the result of
`ENC.ENCODE` as 112 bits has the start byte in 111:104, the twelve bytes of the three packed words below it in wire order, and
the CRC byte in 7:0. -/
def Obligations.ResultVectorsHaveTheirFieldsInPlace : Prop :=
  (∀ w : Words,
    (wordsVector w).extractLsb' 64 32 = w.roll ∧ (wordsVector w).extractLsb' 32 32 = w.pitch ∧
    (wordsVector w).extractLsb' 0 32 = w.yaw) ∧
  (∀ v : BitVec 96, ∃! w : Words, wordsVector w = v) ∧
  (∀ (cfg : Config) (x y z : Word32),
    let v := frameVector (encodeFrame cfg x y z)
    v.extractLsb' 104 8 = cfg.outStartByte ∧
    pack32 cfg.byteOrder x =
      [v.extractLsb' 96 8, v.extractLsb' 88 8, v.extractLsb' 80 8, v.extractLsb' 72 8] ∧
    pack32 cfg.byteOrder y =
      [v.extractLsb' 64 8, v.extractLsb' 56 8, v.extractLsb' 48 8, v.extractLsb' 40 8] ∧
    pack32 cfg.byteOrder z =
      [v.extractLsb' 32 8, v.extractLsb' 24 8, v.extractLsb' 16 8, v.extractLsb' 8 8] ∧
    v.extractLsb' 0 8 = crcOf cfg ((encodeFrame cfg x y z).take 13))

/-- R82, R83: `make_in_frame(p)` is `[IN_START_BYTE] ‖ p ‖ [crc_of([IN_START_BYTE] ‖ p)]`; for `N_IN` bytes it is the one valid
inbound frame with that payload, and feeding it to a decoder in `Idle` emits exactly `p`. -/
def Obligations.MadeInboundFrameIsTheOneValidAndIsEmitted : Prop :=
  ∀ (s : State) (p : List Byte), p.length = s.cfg.nIn →
    let f := makeInFrame s.cfg p
    f = [s.cfg.inStartByte] ++ p ++ [fold s.cfg.crcInit ([s.cfg.inStartByte] ++ p)] ∧
    validInFrame s.cfg f = true ∧
    (∀ g, validInFrame s.cfg g = true → (g.drop 1).take s.cfg.nIn = p → g = f) ∧
    (s.state = .idle → Memory.wf s.payloadBuf = true →
      ∃ (t : State) (rs : List FeedResult), feedAll f s = some (t, rs) ∧ emitted rs = [p] ∧
        t.state = .idle ∧ t.errCount = s.errCount)
end

