-- ==== Sys2Proof/Laws/Crc.lean ====
section
/-! SUPPORT. The laws of the CRC engine that its callers cite: one shift is linear, the step depends on the exclusive or of
its operands, the fold of a concatenation. -/

namespace Sys2Proof.Machine

theorem crcShift_xor (a b : Byte) : crcShift (a ^^^ b) = crcShift a ^^^ crcShift b := by
  have hx : (a ^^^ b).getLsbD 7 = (a.getLsbD 7 ^^ b.getLsbD 7) := BitVec.getLsbD_xor
  unfold crcShift
  rw [hx]
  have hpp (u v : Byte) : (u ^^^ crcPoly) ^^^ (v ^^^ crcPoly) = u ^^^ v := by
    rw [BitVec.xor_assoc, BitVec.xor_comm v, ← BitVec.xor_assoc crcPoly, BitVec.xor_self, BitVec.zero_xor]
  cases a.getLsbD 7 <;> cases b.getLsbD 7 <;> simp [BitVec.shiftLeft_xor_distrib, hpp] <;> ac_rfl

theorem crcShifts_xor (n : Nat) (a b : Byte) : crcShifts n (a ^^^ b) = crcShifts n a ^^^ crcShifts n b := by
  induction n generalizing a b with
  | zero => rfl
  | succ n ih => simp only [crcShifts, crcShift_xor, ih]

theorem update_eq (crc data : Byte) : update crc data = update 0#8 (crc ^^^ data) := by simp [update]

@[simp] theorem fold_nil (init : Byte) : fold init [] = init := rfl

@[simp] theorem fold_cons (init b : Byte) (bs : List Byte) : fold init (b :: bs) = fold (update init b) bs := rfl

theorem fold_append (init : Byte) (bs cs : List Byte) : fold init (bs ++ cs) = fold (fold init bs) cs := by
  induction bs generalizing init with
  | nil => rfl
  | cons b bs ih => simp [ih]

@[simp] theorem crcOf_nil (cfg : Config) : crcOf cfg [] = cfg.crcInit := rfl

theorem crcOf_append (cfg : Config) (bs cs : List Byte) : crcOf cfg (bs ++ cs) = fold (crcOf cfg bs) cs :=
  fold_append cfg.crcInit bs cs

theorem fold_snoc (init b : Byte) (bs : List Byte) : fold init (bs ++ [b]) = update (fold init bs) b := by
  simp [fold_append]

end Sys2Proof.Machine
end

