-- ==== Sys2Proof/Laws/Memory.lean ====
section
/-! SUPPORT. The laws of a byte space: read after write, the canonical form is kept, equal contents are equal data, and the byte
sequences of `MemRead` and `MemWrite`. -/

namespace Sys2Proof.Machine

theorem Memory.read_write_of_ne (m : Memory) {k a : Nat} (b : Byte) (h : a ≠ k) :
    Memory.read (Memory.write m k b) a = Memory.read m a := by
  induction m with
  | nil => by_cases hb : b = unlistedByte <;> simp [Memory.write, Memory.read, hb, h]
  | cons cell rest ih =>
    obtain ⟨k', b'⟩ := cell
    by_cases hlt : k < k'
    · by_cases hb : b = unlistedByte <;> simp [Memory.write, Memory.read, hlt, hb, h]
    · by_cases heq : k = k'
      · subst heq
        by_cases hb : b = unlistedByte <;> simp [Memory.write, Memory.read, hb, h]
      · simp [Memory.write, Memory.read, hlt, heq, ih]

theorem Memory.risingFrom_mono {lo lo' : Nat} {m : Memory} (hle : lo' ≤ lo) (h : Memory.risingFrom lo m = true) :
    Memory.risingFrom lo' m = true := by
  cases m with
  | nil => rfl
  | cons cell rest =>
    simp only [Memory.risingFrom, Bool.and_eq_true, decide_eq_true_eq] at h ⊢
    exact ⟨⟨le_trans hle h.1.1, h.1.2⟩, h.2⟩

/-- Below the first offset everything reads as unlisted. -/
theorem Memory.read_of_risingFrom {lo a : Nat} {m : Memory} (h : Memory.risingFrom lo m = true) (ha : a < lo) :
    Memory.read m a = unlistedByte := by
  induction m generalizing lo with
  | nil => rfl
  | cons cell rest ih =>
    simp only [Memory.risingFrom, Bool.and_eq_true, decide_eq_true_eq] at h
    have hne : a ≠ cell.1 := by omega
    simp only [Memory.read, if_neg hne]
    exact ih h.2 (by omega)

theorem Memory.risingFrom_write {lo k : Nat} {m : Memory} (b : Byte) (h : Memory.risingFrom lo m = true) (hk : lo ≤ k) :
    Memory.risingFrom lo (Memory.write m k b) = true := by
  induction m generalizing lo with
  | nil => by_cases hb : b = unlistedByte <;> simp [Memory.write, Memory.risingFrom, hb, hk]
  | cons cell rest ih =>
    obtain ⟨k', b'⟩ := cell
    simp only [Memory.risingFrom, Bool.and_eq_true, decide_eq_true_eq] at h
    by_cases hlt : k < k'
    · by_cases hb : b = unlistedByte
      · simp [Memory.write, Memory.risingFrom, hlt, hb, h.1.1, h.1.2, h.2]
      · have hb' : b' ≠ unlistedByte := by simpa using h.1.2
        simp [Memory.write, Memory.risingFrom, hlt, hb, hb', hk, h.2, Nat.succ_le_of_lt hlt]
    · by_cases heq : k = k'
      · subst heq
        by_cases hb : b = unlistedByte
        · simpa [Memory.write, hb] using Memory.risingFrom_mono (by omega) h.2
        · simp [Memory.write, Memory.risingFrom, hb, hk, h.2]
      · have hrest := ih h.2 (by omega)
        simp only [Memory.write, if_neg hlt, if_neg heq, Memory.risingFrom, Bool.and_eq_true, decide_eq_true_eq]
        exact ⟨h.1, hrest⟩

/-- Every write keeps the canonical form. -/
theorem Memory.wf_write {m : Memory} (k : Nat) (b : Byte) (h : Memory.wf m = true) : Memory.wf (Memory.write m k b) = true :=
  Memory.risingFrom_write b h (Nat.zero_le k)

theorem Memory.read_write_same_of_risingFrom {lo : Nat} {m : Memory} (k : Nat) (b : Byte)
    (h : Memory.risingFrom lo m = true) : Memory.read (Memory.write m k b) k = b := by
  induction m generalizing lo with
  | nil => by_cases hb : b = unlistedByte <;> simp [Memory.write, Memory.read, hb]
  | cons cell rest ih =>
    obtain ⟨k', b'⟩ := cell
    simp only [Memory.risingFrom, Bool.and_eq_true, decide_eq_true_eq] at h
    by_cases hlt : k < k'
    · by_cases hb : b = unlistedByte
      · have hne : k ≠ k' := by omega
        simp only [Memory.write, if_pos hlt, if_pos hb, Memory.read, if_neg hne]
        rw [Memory.read_of_risingFrom h.2 (by omega), hb]
      · simp [Memory.write, Memory.read, hlt, hb]
    · by_cases heq : k = k'
      · subst heq
        by_cases hb : b = unlistedByte
        · simp only [Memory.write, if_neg hlt, if_pos hb, if_true]
          rw [Memory.read_of_risingFrom h.2 (by omega), hb]
        · simp [Memory.write, Memory.read, hb]
      · simp only [Memory.write, if_neg hlt, if_neg heq, Memory.read]
        exact ih h.2

theorem Memory.read_write_same {m : Memory} (k : Nat) (b : Byte) (h : Memory.wf m = true) :
    Memory.read (Memory.write m k b) k = b := Memory.read_write_same_of_risingFrom k b h

/-- Read after write, in full. -/
theorem Memory.read_write {m : Memory} (k a : Nat) (b : Byte) (h : Memory.wf m = true) :
    Memory.read (Memory.write m k b) a = if a = k then b else Memory.read m a := by
  by_cases hak : a = k
  · subst hak; simp [Memory.read_write_same a b h]
  · simp [hak, Memory.read_write_of_ne m b hak]

theorem Memory.within_write {m : Memory} {n k : Nat} (b : Byte) (h : Memory.within m n = true) (hk : k < n) :
    Memory.within (Memory.write m k b) n = true := by
  induction m with
  | nil => by_cases hb : b = unlistedByte <;> simp [Memory.write, Memory.within, hb, hk]
  | cons cell rest ih =>
    obtain ⟨k', b'⟩ := cell
    simp only [Memory.within, List.all_cons, Bool.and_eq_true, decide_eq_true_eq] at h ih ⊢
    by_cases hlt : k < k'
    · by_cases hb : b = unlistedByte
      · simpa [Memory.write, hlt, hb] using h
      · simpa [Memory.write, hlt, hb, hk] using h
    · by_cases heq : k = k'
      · by_cases hb : b = unlistedByte
        · simpa [Memory.write, hlt, heq, hb] using h.2
        · simpa [Memory.write, hlt, heq, hb, h.1] using h.2
      · simp only [Memory.write, if_neg hlt, if_neg heq, List.all_cons, Bool.and_eq_true, decide_eq_true_eq]
        exact ⟨h.1, ih h.2⟩

/-- In canonical form, equal contents are equal data. -/
theorem Memory.eq_of_read_eq {lo : Nat} {m m' : Memory} (h : Memory.risingFrom lo m = true)
    (h' : Memory.risingFrom lo m' = true) (heq : ∀ a, Memory.read m a = Memory.read m' a) : m = m' := by
  induction m generalizing lo m' with
  | nil =>
    cases m' with
    | nil => rfl
    | cons cell rest =>
      have := heq cell.1
      simp [Memory.risingFrom, Memory.read] at h' this
      exact absurd this.symm h'.1.2
  | cons cell rest ih =>
    cases m' with
    | nil =>
      have := heq cell.1
      simp [Memory.risingFrom, Memory.read] at h this
      exact absurd this h.1.2
    | cons cell' rest' =>
      obtain ⟨k, b⟩ := cell
      obtain ⟨k', b'⟩ := cell'
      simp only [Memory.risingFrom, Bool.and_eq_true, decide_eq_true_eq, bne_iff_ne] at h h'
      have hk : k = k' := by
        rcases Nat.lt_trichotomy k k' with hlt | he | hgt
        · have h1 := heq k
          simp only [Memory.read, if_true, if_neg (Nat.ne_of_lt hlt)] at h1
          rw [Memory.read_of_risingFrom h'.2 (by omega)] at h1
          exact absurd h1 h.1.2
        · exact he
        · have h1 := heq k'
          simp only [Memory.read, if_true, if_neg (Nat.ne_of_lt hgt)] at h1
          rw [Memory.read_of_risingFrom h.2 (by omega)] at h1
          exact absurd h1.symm h'.1.2
      subst hk
      have hb : b = b' := by simpa [Memory.read] using heq k
      subst hb
      have hrest : rest = rest' := by
        refine ih h.2 h'.2 (fun a => ?_)
        by_cases hak : a = k
        · subst hak
          rw [Memory.read_of_risingFrom h.2 (by omega), Memory.read_of_risingFrom h'.2 (by omega)]
        · simpa [Memory.read, hak] using heq a
      rw [hrest]

@[simp] theorem Memory.readBytes_length (m : Memory) (off n : Nat) : (Memory.readBytes m off n).length = n := by
  induction n generalizing off with
  | zero => rfl
  | succ n ih => simp [Memory.readBytes, ih]

theorem Memory.readBytes_getElem? (m : Memory) (off n k : Nat) :
    (Memory.readBytes m off n)[k]? = if k < n then some (Memory.read m (off + k)) else none := by
  induction n generalizing off k with
  | zero => simp [Memory.readBytes]
  | succ n ih =>
    cases k with
    | zero => simp [Memory.readBytes]
    | succ k =>
      simp only [Memory.readBytes, List.getElem?_cons_succ, ih, Nat.add_lt_add_iff_right]
      rw [show off + 1 + k = off + (k + 1) by omega]

theorem Memory.readBytes_succ_last (m : Memory) (off n : Nat) :
    Memory.readBytes m off (n + 1) = Memory.readBytes m off n ++ [Memory.read m (off + n)] := by
  induction n generalizing off with
  | zero => simp [Memory.readBytes]
  | succ n ih =>
    rw [Memory.readBytes, ih (off + 1), Memory.readBytes, List.cons_append]
    rw [show off + 1 + n = off + (n + 1) by omega]

theorem Memory.readBytes_congr {m m' : Memory} {off n : Nat}
    (h : ∀ k, off ≤ k → k < off + n → Memory.read m k = Memory.read m' k) :
    Memory.readBytes m off n = Memory.readBytes m' off n := by
  induction n generalizing off with
  | zero => rfl
  | succ n ih =>
    rw [Memory.readBytes, Memory.readBytes, h off (Nat.le_refl _) (by omega)]
    rw [ih (fun k h1 h2 => h k (by omega) (by omega))]

/-- A write at or above the end of what is read does not show. -/
theorem Memory.readBytes_write_above (m : Memory) {n k : Nat} (b : Byte) (h : n ≤ k) :
    Memory.readBytes (Memory.write m k b) 0 n = Memory.readBytes m 0 n :=
  Memory.readBytes_congr (fun a _ ha => Memory.read_write_of_ne m b (by omega))

theorem Memory.wf_writeBytes {m : Memory} (off : Nat) (bs : List Byte) (h : Memory.wf m = true) :
    Memory.wf (Memory.writeBytes m off bs) = true := by
  induction bs generalizing m off with
  | nil => exact h
  | cons b rest ih => exact ih (off + 1) (Memory.wf_write off b h)

/-- `MemWrite` then a read of one byte: the byte written there, or what was there before. -/
theorem Memory.read_writeBytes {m : Memory} (off : Nat) (bs : List Byte) (a : Nat) (h : Memory.wf m = true) :
    Memory.read (Memory.writeBytes m off bs) a =
      if off ≤ a ∧ a < off + bs.length then bs.getD (a - off) 0#8 else Memory.read m a := by
  induction bs generalizing m off with
  | nil =>
    have : ¬ (off ≤ a ∧ a < off + ([] : List Byte).length) := by simp
    simp only [Memory.writeBytes, if_neg this]
  | cons b rest ih =>
    rw [Memory.writeBytes, ih (off + 1) (Memory.wf_write off b h), Memory.read_write off a b h]
    by_cases hao : a = off
    · subst hao; simp
    · by_cases hin : off + 1 ≤ a ∧ a < off + 1 + rest.length
      · have hin' : off ≤ a ∧ a < off + (b :: rest).length := by simp only [List.length_cons]; omega
        rw [if_pos hin, if_pos hin', show a - off = (a - (off + 1)) + 1 by omega, List.getD_cons_succ]
      · have hin' : ¬ (off ≤ a ∧ a < off + (b :: rest).length) := by simp only [List.length_cons]; omega
        rw [if_neg hin, if_neg hin', if_neg hao]

end Sys2Proof.Machine
end

