-- ==== Sys2Proof/Laws/State.lean ====
section
/-! SUPPORT. One lemma per field per update of the state, each true by rfl. -/

namespace Sys2Proof.Machine

@[simp] theorem State.setState_cfg (s : State) (d : DecState) : (s.setState d).cfg = s.cfg := rfl
@[simp] theorem State.setState_state (s : State) (d : DecState) : (s.setState d).state = d := rfl
@[simp] theorem State.setState_crcAcc (s : State) (d : DecState) : (s.setState d).crcAcc = s.crcAcc := rfl
@[simp] theorem State.setState_idx (s : State) (d : DecState) : (s.setState d).idx = s.idx := rfl
@[simp] theorem State.setState_payloadBuf (s : State) (d : DecState) : (s.setState d).payloadBuf = s.payloadBuf := rfl
@[simp] theorem State.setState_errCount (s : State) (d : DecState) : (s.setState d).errCount = s.errCount := rfl
@[simp] theorem State.setState_script (s : State) (d : DecState) : (s.setState d).script = s.script := rfl
@[simp] theorem State.setState_result (s : State) (d : DecState) : (s.setState d).result = s.result := rfl

@[simp] theorem State.setCrcAcc_cfg (s : State) (v : Byte) : (s.setCrcAcc v).cfg = s.cfg := rfl
@[simp] theorem State.setCrcAcc_state (s : State) (v : Byte) : (s.setCrcAcc v).state = s.state := rfl
@[simp] theorem State.setCrcAcc_crcAcc (s : State) (v : Byte) : (s.setCrcAcc v).crcAcc = v := rfl
@[simp] theorem State.setCrcAcc_idx (s : State) (v : Byte) : (s.setCrcAcc v).idx = s.idx := rfl
@[simp] theorem State.setCrcAcc_payloadBuf (s : State) (v : Byte) : (s.setCrcAcc v).payloadBuf = s.payloadBuf := rfl
@[simp] theorem State.setCrcAcc_errCount (s : State) (v : Byte) : (s.setCrcAcc v).errCount = s.errCount := rfl
@[simp] theorem State.setCrcAcc_script (s : State) (v : Byte) : (s.setCrcAcc v).script = s.script := rfl
@[simp] theorem State.setCrcAcc_result (s : State) (v : Byte) : (s.setCrcAcc v).result = s.result := rfl

@[simp] theorem State.setIdx_cfg (s : State) (n : Nat) : (s.setIdx n).cfg = s.cfg := rfl
@[simp] theorem State.setIdx_state (s : State) (n : Nat) : (s.setIdx n).state = s.state := rfl
@[simp] theorem State.setIdx_crcAcc (s : State) (n : Nat) : (s.setIdx n).crcAcc = s.crcAcc := rfl
@[simp] theorem State.setIdx_idx (s : State) (n : Nat) : (s.setIdx n).idx = n := rfl
@[simp] theorem State.setIdx_payloadBuf (s : State) (n : Nat) : (s.setIdx n).payloadBuf = s.payloadBuf := rfl
@[simp] theorem State.setIdx_errCount (s : State) (n : Nat) : (s.setIdx n).errCount = s.errCount := rfl
@[simp] theorem State.setIdx_script (s : State) (n : Nat) : (s.setIdx n).script = s.script := rfl
@[simp] theorem State.setIdx_result (s : State) (n : Nat) : (s.setIdx n).result = s.result := rfl

@[simp] theorem State.setErrCount_cfg (s : State) (n : Nat) : (s.setErrCount n).cfg = s.cfg := rfl
@[simp] theorem State.setErrCount_state (s : State) (n : Nat) : (s.setErrCount n).state = s.state := rfl
@[simp] theorem State.setErrCount_crcAcc (s : State) (n : Nat) : (s.setErrCount n).crcAcc = s.crcAcc := rfl
@[simp] theorem State.setErrCount_idx (s : State) (n : Nat) : (s.setErrCount n).idx = s.idx := rfl
@[simp] theorem State.setErrCount_payloadBuf (s : State) (n : Nat) : (s.setErrCount n).payloadBuf = s.payloadBuf := rfl
@[simp] theorem State.setErrCount_errCount (s : State) (n : Nat) : (s.setErrCount n).errCount = n := rfl
@[simp] theorem State.setErrCount_script (s : State) (n : Nat) : (s.setErrCount n).script = s.script := rfl
@[simp] theorem State.setErrCount_result (s : State) (n : Nat) : (s.setErrCount n).result = s.result := rfl

@[simp] theorem State.storePayload_cfg (s : State) (k : Nat) (c : Byte) : (s.storePayload k c).cfg = s.cfg := rfl
@[simp] theorem State.storePayload_state (s : State) (k : Nat) (c : Byte) : (s.storePayload k c).state = s.state := rfl
@[simp] theorem State.storePayload_crcAcc (s : State) (k : Nat) (c : Byte) : (s.storePayload k c).crcAcc = s.crcAcc := rfl
@[simp] theorem State.storePayload_idx (s : State) (k : Nat) (c : Byte) : (s.storePayload k c).idx = s.idx := rfl
@[simp] theorem State.storePayload_payloadBuf (s : State) (k : Nat) (c : Byte) : (s.storePayload k c).payloadBuf = Memory.write s.payloadBuf k c := rfl
@[simp] theorem State.storePayload_errCount (s : State) (k : Nat) (c : Byte) : (s.storePayload k c).errCount = s.errCount := rfl
@[simp] theorem State.storePayload_script (s : State) (k : Nat) (c : Byte) : (s.storePayload k c).script = s.script := rfl
@[simp] theorem State.storePayload_result (s : State) (k : Nat) (c : Byte) : (s.storePayload k c).result = s.result := rfl

@[simp] theorem State.setResult_cfg (s : State) (r : Result) : (s.setResult r).cfg = s.cfg := rfl
@[simp] theorem State.setResult_state (s : State) (r : Result) : (s.setResult r).state = s.state := rfl
@[simp] theorem State.setResult_crcAcc (s : State) (r : Result) : (s.setResult r).crcAcc = s.crcAcc := rfl
@[simp] theorem State.setResult_idx (s : State) (r : Result) : (s.setResult r).idx = s.idx := rfl
@[simp] theorem State.setResult_payloadBuf (s : State) (r : Result) : (s.setResult r).payloadBuf = s.payloadBuf := rfl
@[simp] theorem State.setResult_errCount (s : State) (r : Result) : (s.setResult r).errCount = s.errCount := rfl
@[simp] theorem State.setResult_script (s : State) (r : Result) : (s.setResult r).script = s.script := rfl
@[simp] theorem State.setResult_result (s : State) (r : Result) : (s.setResult r).result = r := rfl

@[simp] theorem State.issue_cfg (s : State) (rs : List Request) : (s.issue rs).cfg = s.cfg := rfl
@[simp] theorem State.issue_state (s : State) (rs : List Request) : (s.issue rs).state = s.state := rfl
@[simp] theorem State.issue_crcAcc (s : State) (rs : List Request) : (s.issue rs).crcAcc = s.crcAcc := rfl
@[simp] theorem State.issue_idx (s : State) (rs : List Request) : (s.issue rs).idx = s.idx := rfl
@[simp] theorem State.issue_payloadBuf (s : State) (rs : List Request) : (s.issue rs).payloadBuf = s.payloadBuf := rfl
@[simp] theorem State.issue_errCount (s : State) (rs : List Request) : (s.issue rs).errCount = s.errCount := rfl
@[simp] theorem State.issue_script (s : State) (rs : List Request) : (s.issue rs).script = s.script ++ rs := rfl
@[simp] theorem State.issue_result (s : State) (rs : List Request) : (s.issue rs).result = s.result := rfl

@[simp] theorem State.view_cfg (s : State) : s.view.cfg = s.cfg := rfl
@[simp] theorem State.view_state (s : State) : s.view.state = s.state := rfl
@[simp] theorem State.view_idx (s : State) : s.view.idx = s.idx := rfl
@[simp] theorem State.view_crcAcc (s : State) : s.view.crcAcc = s.crcAcc := rfl

/-- The dispatch map does not read the result. -/
@[simp] theorem State.view_setResult (s : State) (r : Result) : (s.setResult r).view = s.view := rfl

@[simp] theorem State.payload_setResult (s : State) (r : Result) : (s.setResult r).payload = s.payload := rfl

@[simp] theorem State.setResult_setResult (s : State) (r r' : Result) : (s.setResult r).setResult r' = s.setResult r' := rfl

@[simp] theorem State.raise_framingMismatch (s : State) : s.raise .framingMismatch = s := rfl

theorem State.raise_checksumMismatch (s : State) :
    s.raise .checksumMismatch = (s.setErrCount (satInc s.cfg.errW s.errCount)).setState .idle := rfl

/-- Whatever the condition, raising it changes `state` and `err_count` only. -/
theorem State.raise_frame (s : State) (e : ErrorCondition) :
    s.raise e = { s with state := (s.raise e).state, errCount := (s.raise e).errCount } := by
  cases e <;> rfl

end Sys2Proof.Machine
end

