-- ==== Sys2Proof/Laws/Feed.lean ====
section
/-! SUPPORT. What the rows of `DEC.FEED` can do, said once: the dispatch map and the row conditions agree, what no row
writes, and `DEC.FEED` as one operation. -/

namespace Sys2Proof.Machine

/-- The dispatch map selects exactly the row whose condition holds. -/
theorem selectRow_eq_some_iff (v : FeedView) (c : Byte) (r : FeedRow) :
    selectRow v c = some r ↔ rowCondition r v c = true := by
  obtain ⟨cfg, st, idx, crc⟩ := v
  cases st with
  | idle => by_cases h : c = cfg.inStartByte <;> cases r <;> simp [selectRow, rowCondition, h]
  | awaitingPayload =>
    by_cases h1 : idx + 1 < cfg.nIn
    · have h2 : idx + 1 ≠ cfg.nIn := by omega
      cases r <;> simp [selectRow, rowCondition, h1, h2]
    · by_cases h2 : idx + 1 = cfg.nIn <;> cases r <;> simp [selectRow, rowCondition, h1, h2]
  | awaitingCrc => by_cases h : c = crc <;> cases r <;> simp [selectRow, rowCondition, h]

/-! The row conditions, as propositions about the registers. -/

theorem rowCondition_idleStart (c : Byte) (s : State) :
    rowCondition .idleStart s.view c = true ↔ s.state = .idle ∧ c = s.cfg.inStartByte := by simp [rowCondition]

theorem rowCondition_idleSkip (c : Byte) (s : State) :
    rowCondition .idleSkip s.view c = true ↔ s.state = .idle ∧ c ≠ s.cfg.inStartByte := by simp [rowCondition]

theorem rowCondition_payloadMore (c : Byte) (s : State) :
    rowCondition .payloadMore s.view c = true ↔ s.state = .awaitingPayload ∧ s.idx + 1 < s.cfg.nIn := by
  unfold rowCondition
  rw [Bool.and_eq_true, beq_iff_eq, decide_eq_true_eq]
  rfl

theorem rowCondition_payloadLast (c : Byte) (s : State) :
    rowCondition .payloadLast s.view c = true ↔ s.state = .awaitingPayload ∧ s.idx + 1 = s.cfg.nIn := by simp [rowCondition]

theorem rowCondition_crcOk (c : Byte) (s : State) :
    rowCondition .crcOk s.view c = true ↔ s.state = .awaitingCrc ∧ c = s.crcAcc := by simp [rowCondition]

theorem rowCondition_crcBad (c : Byte) (s : State) :
    rowCondition .crcBad s.view c = true ↔ s.state = .awaitingCrc ∧ c ≠ s.crcAcc := by simp [rowCondition]

/-- In a state with room for a payload byte some row applies to every byte. -/
theorem exists_rowCondition {s : State} (h : CanTakeByte s) (c : Byte) : ∃ r, rowCondition r s.view c = true := by
  cases hs : s.state with
  | idle =>
    by_cases hc : c = s.cfg.inStartByte
    · exact ⟨.idleStart, (rowCondition_idleStart c s).mpr ⟨hs, hc⟩⟩
    · exact ⟨.idleSkip, (rowCondition_idleSkip c s).mpr ⟨hs, hc⟩⟩
  | awaitingPayload =>
    have hlt := h hs
    by_cases hi : s.idx + 1 < s.cfg.nIn
    · exact ⟨.payloadMore, (rowCondition_payloadMore c s).mpr ⟨hs, hi⟩⟩
    · exact ⟨.payloadLast, (rowCondition_payloadLast c s).mpr ⟨hs, by omega⟩⟩
  | awaitingCrc =>
    by_cases hc : c = s.crcAcc
    · exact ⟨.crcOk, (rowCondition_crcOk c s).mpr ⟨hs, hc⟩⟩
    · exact ⟨.crcBad, (rowCondition_crcBad c s).mpr ⟨hs, hc⟩⟩

/-- No row takes away the room for the next payload byte. -/
theorem canTakeByte_rowEffect {r : FeedRow} {c : Byte} {s : State} (h : rowCondition r s.view c = true) :
    CanTakeByte (rowEffect r c s).1 := by
  intro hst
  cases r with
  | idleStart => exact s.cfg.nIn_pos
  | idleSkip => exact absurd (hst.symm.trans ((rowCondition_idleSkip c s).mp h).1) (by decide)
  | payloadMore => exact ((rowCondition_payloadMore c s).mp h).2
  | payloadLast => exact absurd (show DecState.awaitingCrc = .awaitingPayload from hst) (by decide)
  | crcOk => exact absurd (show DecState.idle = .awaitingPayload from hst) (by decide)
  | crcBad => exact absurd (show DecState.idle = .awaitingPayload from hst) (by decide)

/-- A row of `DEC.FEED` answers a next state exactly when its condition holds, and then with its effect and its result. -/
theorem execRow_eq_next_iff (r : FeedRow) (c : Byte) (s t : State) :
    execRow r c s = .next t ↔
      rowCondition r s.view c = true ∧ t = (rowEffect r c s).1.setResult (.feed (rowEffect r c s).2) := by
  unfold execRow
  by_cases h : rowCondition r s.view c = true
  · rw [if_pos h]
    exact ⟨fun hx => ⟨h, (Host.Outcome.next.inj hx).symm⟩, fun hx => by rw [hx.2]⟩
  · rw [if_neg h]
    exact ⟨fun hx => (by cases hx), fun hx => absurd hx.1 h⟩

theorem rowEffect_cfg (r : FeedRow) (c : Byte) (s : State) : (rowEffect r c s).1.cfg = s.cfg := by
  cases r <;> rfl

theorem rowEffect_script (r : FeedRow) (c : Byte) (s : State) : (rowEffect r c s).1.script = s.script := by
  cases r <;> rfl

theorem rowEffect_result (r : FeedRow) (c : Byte) (s : State) : (rowEffect r c s).1.result = s.result := by
  cases r <;> rfl

/-- Only the payload rows write the buffer, at the index held before. -/
theorem rowEffect_payloadBuf (r : FeedRow) (c : Byte) (s : State) :
    (rowEffect r c s).1.payloadBuf = s.payloadBuf ∨
      ((r = .payloadMore ∨ r = .payloadLast) ∧
        (rowEffect r c s).1.payloadBuf = Memory.write s.payloadBuf s.idx c) := by
  cases r <;> first | exact .inl rfl | exact .inr ⟨by simp, rfl⟩

/-- `DEC.FEED` in a state where a row applies is the effect of that row. -/
theorem feedByte_eq_of_rowCondition {r : FeedRow} {c : Byte} {s : State} (h : rowCondition r s.view c = true) :
    feedByte c s = some (rowEffect r c s) := by
  simp [feedByte, (selectRow_eq_some_iff s.view c r).mpr h]

/-- `DEC.FEED` answers in every state with room for a payload byte. -/
theorem feedByte_of_canTakeByte {s : State} (h : CanTakeByte s) (c : Byte) :
    ∃ r, rowCondition r s.view c = true ∧ feedByte c s = some (rowEffect r c s) :=
  (exists_rowCondition h c).imp (fun _ hr => ⟨hr, feedByte_eq_of_rowCondition hr⟩)

/-- Where `DEC.FEED` answers, the row that applies says what. -/
theorem feedByte_cases {c : Byte} {s t : State} {res : FeedResult} (h : feedByte c s = some (t, res)) :
    ∃ r, rowCondition r s.view c = true ∧ (t, res) = rowEffect r c s := by
  unfold feedByte at h
  split at h
  · next r hr => exact ⟨r, (selectRow_eq_some_iff _ _ _).mp hr, (Option.some.inj h).symm⟩
  · cases h

@[simp] theorem feedAll_nil (s : State) : feedAll [] s = some (s, []) := rfl

/-- `feed_all` of a concatenation: the second part continues in the state the first part left. -/
theorem feedAll_append (bs cs : List Byte) (s : State) :
    feedAll (bs ++ cs) s =
      match feedAll bs s with
      | none => none
      | some (t, rs) =>
        match feedAll cs t with
        | none => none
        | some (u, rs') => some (u, rs ++ rs') := by
  induction bs generalizing s with
  | nil => cases h : feedAll cs s <;> simp [feedAll, h]
  | cons b bs ih =>
    simp only [List.cons_append, feedAll]
    cases hb : feedByte b s with
    | none => rfl
    | some p =>
      simp only [ih]
      cases h1 : feedAll bs p.1 with
      | none => rfl
      | some q =>
        cases h2 : feedAll cs q.1 <;> simp [h2]

theorem feedAll_length {bs : List Byte} {s t : State} {rs : List FeedResult} (h : feedAll bs s = some (t, rs)) :
    rs.length = bs.length := by
  induction bs generalizing s t rs with
  | nil => simp [feedAll] at h; simp [h.2.symm]
  | cons b bs ih =>
    simp only [feedAll] at h
    split at h
    · cases h
    · next t1 r1 _ =>
      split at h
      · cases h
      · next u rs1 hrest =>
        simp only [Option.some.injEq, Prod.mk.injEq] at h
        rw [← h.2, List.length_cons, List.length_cons, ih hrest]

end Sys2Proof.Machine
end

