-- ==== Sys2Proof/Laws/PerInstr.lean ====
section
/-! SUPPORT. The family OperandLength: the operand vector of a well-formed operation has the width that the table's column
"width" and 30_encoding.md R77 give its port, in bytes. -/

namespace Sys2Proof.Laws

theorem pack32_length (o : ByteOrder) (w : Word32) : (Machine.pack32 o w).length = 4 := by cases o <;> rfl

/-- The width of a port's operand vector, in bytes. -/
def portBytes (cfg : Config) (p : Port) : Nat :=
  match p with
  | .crc => 2
  | .enc => 12
  | .feed => 1
  | .unpack => cfg.nIn
  | .reset => 0
  | .errRead => 0
  | .outFrame => outFrameLen
  | .inFrame => cfg.inFrameLen

/-- The statement of the family, for one instruction. -/
def OperandLength.Statement (i : Instr) : Prop :=
  ∀ cfg, WellFormed cfg i = true → (encode cfg i).operand.length = portBytes cfg (encode cfg i).port

theorem OperandLength.crcUpdate (crc data : Byte) : OperandLength.Statement (.crcUpdate crc data) := fun _ _ => rfl
theorem OperandLength.encEncode (x y z : Word32) : OperandLength.Statement (.encEncode x y z) := fun _ _ => rfl
theorem OperandLength.feedIdleStart (c : Byte) : OperandLength.Statement (.feedIdleStart c) := fun _ _ => rfl
theorem OperandLength.feedIdleSkip (c : Byte) : OperandLength.Statement (.feedIdleSkip c) := fun _ _ => rfl
theorem OperandLength.feedPayloadMore (c : Byte) : OperandLength.Statement (.feedPayloadMore c) := fun _ _ => rfl
theorem OperandLength.feedPayloadLast (c : Byte) : OperandLength.Statement (.feedPayloadLast c) := fun _ _ => rfl
theorem OperandLength.feedCrcOk (c : Byte) : OperandLength.Statement (.feedCrcOk c) := fun _ _ => rfl
theorem OperandLength.feedCrcBad (c : Byte) : OperandLength.Statement (.feedCrcBad c) := fun _ _ => rfl

theorem OperandLength.decUnpack (payload : List Byte) : OperandLength.Statement (.decUnpack payload) := by
  intro cfg h
  simp only [WellFormed, Bool.and_eq_true, beq_iff_eq] at h
  exact h.2

theorem OperandLength.decReset : OperandLength.Statement .decReset := fun _ _ => rfl
theorem OperandLength.errRead : OperandLength.Statement .errRead := fun _ _ => rfl

theorem OperandLength.frameOut14 (x y z : Word32) (crc : Byte) : OperandLength.Statement (.frameOut14 x y z crc) := by
  intro cfg _
  simp [encode, outFrameBytes, portBytes, outFrameLen, pack32_length]

theorem OperandLength.frameIn (payload : List Byte) (crc : Byte) : OperandLength.Statement (.frameIn payload crc) := by
  intro cfg h
  simp only [WellFormed, beq_iff_eq] at h
  simp [encode, inFrameBytes, portBytes, Config.inFrameLen, h]

end Sys2Proof.Laws
end

