-- ==== Sys2Proof/Laws/Step.lean ====
section
/-! SUPPORT. What a step can do, said once. -/

namespace Sys2Proof.Machine

@[simp] theorem run_zero (s : State) : run 0 s = .next s := rfl

theorem run_succ (k : Nat) (s : State) :
    run (k + 1) s =
      match step s with
      | .next t => run k t
      | .fault r => .fault r
      | .refused r => .refused r := rfl

/-- A run is the host interface's run of the machine. -/
theorem run_eq_core_run (k : Nat) (s : State) : run k s = Host.Core.run Sys2Proof.core k s := by
  induction k generalizing s with
  | zero => rfl
  | succ k ih =>
    have hstep : Sys2Proof.core.step s = step s := rfl
    cases h : step s <;> simp only [run, Host.Core.run, hstep, h] <;> first | exact ih _ | rfl

/-- A run of `j + k` steps is a run of `k` steps from where `j` steps lead. -/
theorem run_add {j : Nat} (k : Nat) {s t : State} (h : run j s = .next t) : run (j + k) s = run k t := by
  induction j generalizing s with
  | zero => cases h; simp
  | succ j ih =>
    rw [run_succ] at h
    rw [show j + 1 + k = (j + k) + 1 by omega, run_succ]
    cases hs : step s with
    | next u => simp only [hs] at h ⊢; exact ih h
    | fault r => exact r.casesOn
    | refused r => simp only [hs] at h; cases h

/-- The state in which the operation at the head of the script `r :: rest` is performed. -/
theorem State.fetch_cons {s : State} {r : Request} {rest : List Request} (h : s.script = r :: rest) :
    s.fetch = some (r, { s with script := rest }) := by simp [State.fetch, h]

theorem State.fetch_nil {s : State} (h : s.script = []) : s.fetch = none := by simp [State.fetch, h]

/-- A step that goes on either had nothing to perform and held the registers, or performed the operation that the head of
the script decodes to in the registers found. -/
theorem step_cases {s t : State} (h : step s = .next t) :
    (s.script = [] ∧ t = s.hold) ∨
      ∃ r rest i, s.script = r :: rest ∧ decode s.view r = .ok i ∧ exec i { s with script := rest } = .next t := by
  unfold step at h
  cases hs : s.script with
  | nil =>
    rw [State.fetch_nil hs] at h
    exact .inl ⟨rfl, (Host.Outcome.next.inj h).symm⟩
  | cons r rest =>
    rw [State.fetch_cons hs] at h
    refine .inr ⟨r, rest, ?_⟩
    simp only [show State.view { s with script := rest } = s.view from rfl] at h
    cases hd : decode s.view r with
    | error why => simp only [hd] at h; cases h
    | ok i => simp only [hd] at h; exact ⟨i, rfl, rfl, h⟩

/-- What an operation that goes on can have done: nothing but its result, a reset, one row of `DEC.FEED`, or a sequence of
`DEC.FEED`. -/
theorem exec_cases {i : Instr} {s t : State} (h : exec i s = .next t) :
    (isPure i = true ∧ ∃ r, t = s.setResult r) ∨
      (i = .decReset ∧ t = (s.setState .idle).setResult .none) ∨
      (∃ r c, i = feedInstr r c ∧ rowCondition r s.view c = true ∧
        t = (rowEffect r c s).1.setResult (.feed (rowEffect r c s).2)) ∨
      (∃ bs u rs, feedAll bs s = some (u, rs) ∧ t = u.setResult (.feedAll rs)) := by
  have row : ∀ r c, i = feedInstr r c → execRow r c s = .next t →
      ∃ r c, i = feedInstr r c ∧ rowCondition r s.view c = true ∧
        t = (rowEffect r c s).1.setResult (.feed (rowEffect r c s).2) :=
    fun r c hi hx => ⟨r, c, hi, (execRow_eq_next_iff r c s t).mp hx⟩
  have all : ∀ bs, execFeedAll bs s = .next t →
      ∃ bs u rs, feedAll bs s = some (u, rs) ∧ t = u.setResult (.feedAll rs) := by
    intro bs hx
    unfold execFeedAll at hx
    split at hx
    · next u rs hf => exact ⟨bs, u, rs, hf, (Host.Outcome.next.inj hx).symm⟩
    · cases hx
  cases i with
  | crcUpdate crc data => exact .inl ⟨rfl, _, (Host.Outcome.next.inj h).symm⟩
  | encEncode x y z => exact .inl ⟨rfl, _, (Host.Outcome.next.inj h).symm⟩
  | feedIdleStart c => exact .inr (.inr (.inl (row .idleStart c rfl h)))
  | feedIdleSkip c => exact .inr (.inr (.inl (row .idleSkip c rfl h)))
  | feedPayloadMore c => exact .inr (.inr (.inl (row .payloadMore c rfl h)))
  | feedPayloadLast c => exact .inr (.inr (.inl (row .payloadLast c rfl h)))
  | feedCrcOk c => exact .inr (.inr (.inl (row .crcOk c rfl h)))
  | feedCrcBad c => exact .inr (.inr (.inl (row .crcBad c rfl h)))
  | decUnpack p =>
    refine .inl ⟨rfl, ?_⟩
    simp only [exec, execDecUnpack] at h
    split at h
    · cases h
    · split at h
      · split at h
        · exact ⟨_, (Host.Outcome.next.inj h).symm⟩
        · cases h
      · cases h
  | decReset => exact .inr (.inl ⟨rfl, (Host.Outcome.next.inj h).symm⟩)
  | errRead => exact .inl ⟨rfl, _, (Host.Outcome.next.inj h).symm⟩
  | frameOut14 x y z crc => exact .inr (.inr (.inr (all _ h)))
  | frameIn p crc => exact .inr (.inr (.inr (all _ h)))

end Sys2Proof.Machine
end

