-- ==== Sys2Proof/Laws/Stream.lean ====
section
/-! SUPPORT. What a sequence of bytes does to the decoder, piece by piece: what no sequence writes, bytes skipped in `Idle`, and
payload bytes stored one after the other. -/

namespace Sys2Proof.Machine

@[simp] theorem makeInFrame_length (cfg : Config) (p : List Byte) : (makeInFrame cfg p).length = p.length + 2 := by
  simp [makeInFrame, inFrameBytes]

/-- What one `DEC.FEED` leaves alone, or keeps. -/
structure SameFrame (s t : State) : Prop where
  cfg : t.cfg = s.cfg
  script : t.script = s.script
  result : t.result = s.result
  above : ∀ a, s.cfg.nIn ≤ a → Memory.read t.payloadBuf a = Memory.read s.payloadBuf a
  wf : Memory.wf s.payloadBuf = true → Memory.wf t.payloadBuf = true
  canTake : CanTakeByte t

theorem feedByte_sameFrame {c : Byte} {s t : State} {r : FeedResult} (h : feedByte c s = some (t, r)) : SameFrame s t := by
  obtain ⟨row, hrow, heq⟩ := feedByte_cases h
  obtain rfl : t = (rowEffect row c s).1 := congrArg Prod.fst heq
  refine ⟨rowEffect_cfg row c s, rowEffect_script row c s, rowEffect_result row c s, ?_, ?_, canTakeByte_rowEffect hrow⟩
  · intro a ha
    rcases rowEffect_payloadBuf row c s with hb | ⟨hr, hb⟩
    · rw [hb]
    · have hlt : s.idx < s.cfg.nIn := by
        rcases hr with rfl | rfl
        · exact Nat.lt_of_succ_lt ((rowCondition_payloadMore c s).mp hrow).2
        · exact Nat.lt_of_succ_le (Nat.le_of_eq ((rowCondition_payloadLast c s).mp hrow).2)
      rw [hb, Memory.read_write_of_ne _ _ (by omega)]
  · intro hwf
    rcases rowEffect_payloadBuf row c s with hb | ⟨_, hb⟩
    · rw [hb]; exact hwf
    · rw [hb]; exact Memory.wf_write _ _ hwf

/-- In a state with room for a payload byte every sequence of bytes is fed to its end. -/
theorem feedAll_of_canTakeByte (bs : List Byte) {s : State} (h : CanTakeByte s) :
    ∃ t rs, feedAll bs s = some (t, rs) ∧ CanTakeByte t := by
  induction bs generalizing s with
  | nil => exact ⟨s, [], rfl, h⟩
  | cons c bs ih =>
    obtain ⟨row, hrow, hf⟩ := feedByte_of_canTakeByte h c
    obtain ⟨t, rs, ht, hc⟩ := ih (canTakeByte_rowEffect hrow)
    exact ⟨t, (rowEffect row c s).2 :: rs, by simp [feedAll, hf, ht], hc⟩

/-- What a sequence of `DEC.FEED` leaves alone. -/
theorem feedAll_frame {bs : List Byte} {s t : State} {rs : List FeedResult} (h : feedAll bs s = some (t, rs)) :
    t.cfg = s.cfg ∧ t.script = s.script ∧ t.result = s.result ∧
      (∀ a, s.cfg.nIn ≤ a → Memory.read t.payloadBuf a = Memory.read s.payloadBuf a) ∧
      (Memory.wf s.payloadBuf = true → Memory.wf t.payloadBuf = true) := by
  induction bs generalizing s t rs with
  | nil =>
    simp only [feedAll, Option.some.injEq, Prod.mk.injEq] at h
    obtain ⟨rfl, -⟩ := h
    exact ⟨rfl, rfl, rfl, fun _ _ => rfl, id⟩
  | cons c bs ih =>
    simp only [feedAll] at h
    split at h
    · cases h
    · next u r hu =>
      split at h
      · cases h
      · next v rs' hv =>
        simp only [Option.some.injEq, Prod.mk.injEq] at h
        obtain ⟨rfl, -⟩ := h
        have h1 := feedByte_sameFrame hu
        obtain ⟨i1, i2, i3, i4, i5⟩ := ih hv
        exact ⟨i1.trans h1.cfg, i2.trans h1.script, i3.trans h1.result,
          fun a ha => (i4 a (h1.cfg ▸ ha)).trans (h1.above a ha), fun hwf => i5 (h1.wf hwf)⟩

/-- Bytes that are not the start byte leave a decoder in `Idle` as it is. -/
theorem feedAll_skip {s : State} (bs : List Byte) (hs : s.state = .idle) (h : ∀ b ∈ bs, b ≠ s.cfg.inStartByte) :
    feedAll bs s = some (s, List.replicate bs.length .nothing) := by
  induction bs with
  | nil => rfl
  | cons c bs ih =>
    have hc := feedByte_eq_of_rowCondition ((rowCondition_idleSkip c s).mpr ⟨hs, h c (by simp)⟩)
    have hf : feedByte c s = some (s, .nothing) := hc
    simp [feedAll, hf, ih (fun b hb => h b (by simp [hb])), List.replicate_succ]

/-- The state that payload bytes `bs` lead to from `s`. -/
structure AfterPayload (s : State) (bs : List Byte) (t : State) : Prop where
  state : t.state = if s.idx + bs.length = s.cfg.nIn then .awaitingCrc else .awaitingPayload
  idx : t.idx = s.idx + bs.length
  crc : t.crcAcc = fold s.crcAcc bs
  buf : Memory.readBytes t.payloadBuf 0 (s.idx + bs.length) = Memory.readBytes s.payloadBuf 0 s.idx ++ bs
  wf : Memory.wf t.payloadBuf = true
  errCount : t.errCount = s.errCount
  cfg : t.cfg = s.cfg

/-- Payload bytes that fit are folded and stored one after the other, whatever their values, and nothing is emitted. -/
theorem feedAll_payload {s : State} (bs : List Byte) (hs : s.state = .awaitingPayload) (hlt : s.idx < s.cfg.nIn)
    (hfit : s.idx + bs.length ≤ s.cfg.nIn) (hwf : Memory.wf s.payloadBuf = true) :
    ∃ t, feedAll bs s = some (t, List.replicate bs.length .nothing) ∧ AfterPayload s bs t := by
  induction bs generalizing s with
  | nil =>
    have hne : s.idx + 0 ≠ s.cfg.nIn := by omega
    exact ⟨s, rfl, ⟨by simp [hs, Nat.ne_of_lt hlt], rfl, rfl, by simp, hwf, rfl, rfl⟩⟩
  | cons c bs ih =>
    simp only [List.length_cons] at hfit
    have hstore : Memory.readBytes (Memory.write s.payloadBuf s.idx c) 0 (s.idx + 1) =
        Memory.readBytes s.payloadBuf 0 s.idx ++ [c] := by
      rw [Memory.readBytes_succ_last, Memory.readBytes_write_above _ _ (Nat.le_refl _), Nat.zero_add,
        Memory.read_write_same _ _ hwf]
    by_cases hmore : s.idx + 1 < s.cfg.nIn
    · have hf := feedByte_eq_of_rowCondition ((rowCondition_payloadMore c s).mpr ⟨hs, hmore⟩)
      obtain ⟨t, ht, at'⟩ := ih (s := (rowEffect .payloadMore c s).1) rfl hmore
        (show s.idx + 1 + bs.length ≤ s.cfg.nIn by omega) (Memory.wf_write _ _ hwf)
      have hidx : (rowEffect .payloadMore c s).1.idx + bs.length = s.idx + (bs.length + 1) := by
        show s.idx + 1 + bs.length = _; omega
      refine ⟨t, ?_, ⟨?_, ?_, at'.crc, ?_, at'.wf, at'.errCount, at'.cfg⟩⟩
      · have h2 : (rowEffect .payloadMore c s).2 = .nothing := rfl
        simp [feedAll, hf, ht, h2, List.replicate_succ]
      · rw [at'.state, hidx]; rfl
      · rw [at'.idx, hidx]; rfl
      · have hb := at'.buf
        rw [hidx] at hb
        rw [List.length_cons, hb, show (rowEffect .payloadMore c s).1.idx = s.idx + 1 from rfl,
          show (rowEffect .payloadMore c s).1.payloadBuf = Memory.write s.payloadBuf s.idx c from rfl, hstore,
          List.append_assoc, List.singleton_append]
    · have hlast : s.idx + 1 = s.cfg.nIn := by omega
      have hbs : bs = [] := List.eq_nil_of_length_eq_zero (by omega)
      subst hbs
      have hf := feedByte_eq_of_rowCondition ((rowCondition_payloadLast c s).mpr ⟨hs, hlast⟩)
      refine ⟨(rowEffect .payloadLast c s).1, ?_, ⟨?_, rfl, rfl, hstore, Memory.wf_write _ _ hwf, rfl, rfl⟩⟩
      · have h2 : (rowEffect .payloadLast c s).2 = .nothing := rfl
        simp [feedAll, hf, h2]
      · rw [List.length_singleton, if_pos hlast]; rfl

end Sys2Proof.Machine
end

