-- ==== Sys2Proof/Tests/Slice0.lean ====
section
/-! SUPPORT. The model's own tests. Every expected value is one printed in spec/95_test_vectors.md (named in the test's comment) or
in a rule of the spec, or is worked out by hand from one.
First the checks of WellFormed on ill-formed terms, then decoding, then one step of each row, then for each statement with
hypotheses a witness that meets them. -/

namespace Sys2Proof.Tests

open Sys2Proof Sys2Proof.Machine

/-- A decoder with the given registers, the payload buffer holding `buf` from offset 0, and nothing issued. -/
def mk (cfg : Config) (d : DecState) (acc : Byte) (i n : Nat) (buf : List Byte) : State :=
  { State.powerOn cfg (Memory.writeBytes [] 0 buf) with state := d, crcAcc := acc, idx := i, errCount := n }

/-- `s` with one request issued. -/
def ask (s : State) (r : Request) : State := s.issue [r]

/-- The registers of 95_test_vectors.md's tables (`state`, `crc_acc`, `idx`, `err_count`) and the result. -/
def shows (o : Host.Outcome State Fault Refusal) (d : DecState) (acc : Byte) (i n : Nat) (r : Result) : Bool :=
  match o with
  | .next t => t.state == d && t.crcAcc == acc && t.idx == i && t.errCount == n && t.result == r
  | .fault _ => false
  | .refused _ => false

/-- The outcome is a next state. -/
def goesOn (o : Host.Outcome State Fault Refusal) : Bool :=
  match o with
  | .next _ => true
  | .fault _ => false
  | .refused _ => false

theorem next_of_goesOn {o : Host.Outcome State Fault Refusal} (h : goesOn o = true) : ∃ t, o = .next t := by
  cases o with
  | next t => exact ⟨t, rfl⟩
  | fault r => cases h
  | refused r => cases h

/-- The payload of frame `F1` (V-ENC-1). -/
def payload1 : List Byte :=
  [0x00#8, 0x00#8, 0x80#8, 0x3F#8, 0x00#8, 0x00#8, 0x20#8, 0xC0#8, 0x00#8, 0x00#8, 0x00#8, 0x00#8]

/-- Frame `F1` (V-ENC-1). -/
def frame1 : List Byte := 0xA5#8 :: (payload1 ++ [0x0C#8])

/-- The words of V-UNP-1. -/
def words1 : Words := { roll := 0x3F800000#32, pitch := 0xC0200000#32, yaw := 0x00000000#32 }

/-- The decoder before the CRC byte of `F1` (V-DEC-2 line 12). -/
def beforeCrc : State := mk Config.tc1 .awaitingCrc 0x0C#8 12 0 payload1

/-- TC1 with another payload length. -/
def tc1With (n : Nat) (h : 1 ≤ n) : Config := { Config.tc1 with nIn := n, nIn_pos := h }

/-- TC3 with a counter of the given width. -/
def tc3Count (w : ErrWidth) : Config := { Config.tc3 with errW := w }

/-- A request for TC1's parameters (R10). -/
def rawTc1 : RawConfig where
  crcPoly := 0x07#8
  crcIter := 8
  crcInit := 0x00#8
  outStartByte := 0xA5#8
  inStartByte := 0xA5#8
  nIn := 12
  byteOrder := .le
  errW := .bits 32

/-! WellFormed refuses an ill-formed term of each check. -/

theorem test_wf_start_byte : WellFormed Config.tc1 (.feedIdleStart 0xA4#8) = false := by decide
theorem test_wf_skip_byte : WellFormed Config.tc1 (.feedIdleSkip 0xA5#8) = false := by decide
theorem test_wf_more_absent : WellFormed Config.tc4 (.feedPayloadMore 0x00#8) = false := by decide
theorem test_wf_unpack_absent : WellFormed Config.tc3 (.decUnpack [0x00#8, 0x00#8]) = false := by decide
theorem test_wf_unpack_length : WellFormed Config.tc1 (.decUnpack [0x00#8]) = false := by decide
theorem test_wf_frame_length : WellFormed Config.tc3 (.frameIn [0x11#8] 0x00#8) = false := by decide
theorem test_wf_accepts :
    (WellFormed Config.tc1 (.feedIdleStart 0xA5#8) && WellFormed Config.tc1 (.feedIdleSkip 0xA4#8) &&
      WellFormed Config.tc3 (.feedPayloadMore 0x00#8) && WellFormed Config.tc1 (.decUnpack payload1) &&
      WellFormed Config.tc3 (.frameIn [0x11#8, 0x22#8] 0x00#8)) = true := by decide

/-! Decoding: words written out from the layouts of 30_encoding.md R71, R72, R77, R78. -/

/-- V-CRC-15's operand vector `1234`. -/
theorem test_decode_crc_update :
    decodeTableWord 16 0x1234 = some (.crcUpdate 0x12#8 0x34#8) := by decide
/-- R77: `x ‖ y ‖ z`, bit 31 of `x` leftmost (V-ENC-1). -/
theorem test_decode_enc_encode :
    decodeTableWord 96 0x3F800000C020000000000000 = some (.encEncode 0x3F800000#32 0xC0200000#32 0x00000000#32) := by
  decide
/-- V-DEC-1a. -/
theorem test_decode_feed_idle_start : decodeTableWord 8 0xA5 = some (.feedIdleStart 0xA5#8) := by decide
/-- V-DEC-1c. -/
theorem test_decode_feed_idle_skip : decodeTableWord 8 0xA4 = some (.feedIdleSkip 0xA4#8) := by decide
/-- V-DEC-1h: `idx + 1 = 11 < 12`. -/
theorem test_decode_feed_payload_more :
    decode (mk Config.tc1 .awaitingPayload 0x50#8 10 0 []).view (feedRequest 0x00#8) = .ok (.feedPayloadMore 0x00#8) := by
  decide
/-- V-DEC-1i: `idx + 1 = 12`. -/
theorem test_decode_feed_payload_last :
    decode (mk Config.tc1 .awaitingPayload 0xB7#8 11 0 []).view (feedRequest 0x00#8) = .ok (.feedPayloadLast 0x00#8) := by
  decide
/-- V-DEC-1j. -/
theorem test_decode_feed_crc_ok : decode beforeCrc.view (feedRequest 0x0C#8) = .ok (.feedCrcOk 0x0C#8) := by decide
/-- V-DEC-1l. -/
theorem test_decode_feed_crc_bad : decode beforeCrc.view (feedRequest 0xA5#8) = .ok (.feedCrcBad 0xA5#8) := by decide
/-- R77: payload offset 0 leftmost. -/
theorem test_decode_dec_unpack :
    decode (resetView Config.tc1) { port := .unpack, operand := bytesOfVector 12 0x0000803F000020C000000000 } =
      .ok (.decUnpack payload1) := by decide
theorem test_decode_dec_reset : decodeTableWord 0 0 = some .decReset := by decide
/-- R77: a strobe with no operand bits. -/
theorem test_decode_err_read : decode (resetView Config.tc1) { port := .errRead, operand := [] } = .ok .errRead := by decide
/-- R71: the 112 bits of V-ENC-1's frame. -/
theorem test_decode_frame_out14 :
    decodeTableWord 112 0xA50000803F000020C0000000000C =
      some (.frameOut14 0x3F800000#32 0xC0200000#32 0x00000000#32 0x0C#8) := by decide
/-- R72 in TC3: start byte `7E`, two payload bytes, CRC byte. -/
theorem test_decode_frame_in :
    decode (resetView Config.tc3) { port := .inFrame, operand := bytesOfVector 4 0x7E112233 } =
      .ok (.frameIn [0x11#8, 0x22#8] 0x33#8) := by decide
/-- R10, R172: no unpacking below twelve payload bytes. -/
theorem test_decode_unpack_absent :
    decode (resetView Config.tc3) { port := .unpack, operand := [0x00#8, 0x00#8] } = .error .unpackAbsent := by decide
/-- R71: another start byte. -/
theorem test_decode_frame_start_byte :
    decode (resetView Config.tc2) { port := .outFrame, operand := frame1 } = .error .startByte := by decide
theorem test_decode_wrong_width :
    decode (resetView Config.tc1) { port := .crc, operand := [0x00#8] } = .error .operandLength := by decide
/-- The tables' encoder on V-CRC-15 and V-ENC-1. -/
theorem test_encode :
    (encode Config.tc1 (.crcUpdate 0x12#8 0x34#8)).operand = [0x12#8, 0x34#8] ∧
      (encode Config.tc1 (.frameOut14 0x3F800000#32 0xC0200000#32 0x00000000#32 0x0C#8)).operand = frame1 := by decide
/-- The host's placing of a word: the very next step runs it (V-CRC-9). -/
theorem test_step_table_word :
    shows (step (State.reset.withFetchWord 16 0x00A5)) .idle 0x00#8 0 0 (.crcOut 0x72#8) = true := by decide

/-! One step of each row, on vectors of 95_test_vectors.md. -/

/-- V-CRC-3, V-CRC-15. -/
theorem test_crc_update : update 0x00#8 0x80#8 = 0x89#8 ∧ update 0x12#8 0x34#8 = 0xF2#8 := by decide
/-- V-FOLD-4, V-FOLD-10 (the nine ASCII digits) and V-FOLD-7. -/
theorem test_crc_fold :
    fold 0x00#8 [0x31#8, 0x32#8, 0x33#8, 0x34#8, 0x35#8, 0x36#8, 0x37#8, 0x38#8, 0x39#8] = 0xF4#8 ∧
      fold 0xFF#8 [0x31#8, 0x32#8, 0x33#8, 0x34#8, 0x35#8, 0x36#8, 0x37#8, 0x38#8, 0x39#8] = 0xFB#8 ∧
      fold 0xFF#8 [] = 0xFF#8 := by decide +kernel
/-- V-ENC-5: little-endian fields. -/
theorem test_enc_encode_le :
    encodeFrame Config.tc1 0x12345678#32 0x9ABCDEF0#32 0xA5A5A5A5#32 =
      [0xA5#8, 0x78#8, 0x56#8, 0x34#8, 0x12#8, 0xF0#8, 0xDE#8, 0xBC#8, 0x9A#8, 0xA5#8, 0xA5#8, 0xA5#8, 0xA5#8, 0x95#8] := by
  decide +kernel
/-- V-ENC-11: big-endian fields, `CRC_INIT = FF`, a signalling NaN, minus zero and a subnormal. -/
theorem test_enc_encode_be :
    encodeFrame Config.tc2 0x7FA00001#32 0x80000000#32 0x00000001#32 =
      [0x55#8, 0x7F#8, 0xA0#8, 0x00#8, 0x01#8, 0x80#8, 0x00#8, 0x00#8, 0x00#8, 0x00#8, 0x00#8, 0x00#8, 0x01#8, 0x14#8] := by
  decide +kernel
/-- V-DEC-1b: the stale accumulator and index are overwritten. -/
theorem test_feed_idle_start :
    shows (step (ask (mk Config.tc1 .idle 0x0C#8 12 3 payload1) (feedRequest 0xA5#8))) .awaitingPayload 0x72#8 0 3
      (.feed .nothing) = true := by decide
/-- V-DEC-1d: a byte equal to the stale accumulator means nothing in `Idle`. -/
theorem test_feed_idle_skip :
    shows (step (ask (mk Config.tc1 .idle 0x0C#8 12 3 payload1) (feedRequest 0x0C#8))) .idle 0x0C#8 12 3
      (.feed .nothing) = true := by decide
/-- V-DEC-1f: a start-byte value is an ordinary payload byte. -/
theorem test_feed_payload_more :
    shows (step (ask (mk Config.tc1 .awaitingPayload 0x72#8 0 0 []) (feedRequest 0xA5#8))) .awaitingPayload 0x2B#8 1 0
      (.feed .nothing) = true ∧
    (rowEffect .payloadMore 0xA5#8 (mk Config.tc1 .awaitingPayload 0x72#8 0 0 [])).1.payloadBuf = [(0, 0xA5#8)] := by decide
/-- V-DEC-1i. -/
theorem test_feed_payload_last :
    shows (step (ask (mk Config.tc1 .awaitingPayload 0xB7#8 11 0 []) (feedRequest 0x00#8))) .awaitingCrc 0x0C#8 12 0
      (.feed .nothing) = true := by decide
/-- V-DEC-1j, with the words of V-UNP-1. -/
theorem test_feed_crc_ok :
    shows (step (ask beforeCrc (feedRequest 0x0C#8))) .idle 0x0C#8 12 0 (.feed (.emit payload1 (some words1))) = true := by
  decide
/-- V-DEC-1l: a start-byte value in the CRC position is consumed by the comparison. -/
theorem test_feed_crc_bad :
    shows (step (ask { beforeCrc with errCount := 7 } (feedRequest 0xA5#8))) .idle 0x0C#8 12 8 (.feed .mismatch) = true := by
  decide
/-- R25: at `2^ERR_W - 1` a further mismatch leaves the counter; with `ERR_W = inf` it goes on. -/
theorem test_feed_crc_bad_saturates :
    shows (step (ask (mk (tc3Count (.bits 2)) .awaitingCrc 0x00#8 2 3 []) (feedRequest 0x01#8))) .idle 0x00#8 2 3
      (.feed .mismatch) = true ∧
    shows (step (ask (mk (tc3Count .inf) .awaitingCrc 0x00#8 2 3 []) (feedRequest 0x01#8))) .idle 0x00#8 2 4
      (.feed .mismatch) = true := by decide
/-- R171's example. -/
theorem test_dec_unpack_le : unpack3 .le payload1 = some words1 := by decide
/-- R172: payload offsets 12 and up are ignored. -/
theorem test_dec_unpack_longer :
    shows (exec (.decUnpack (payload1 ++ [0xFF#8])) (mk (tc1With 13 (by decide)) .idle 0x00#8 0 0 [])) .idle 0x00#8 0 0
      (.words words1) = true := by decide
/-- R77: the words of V-UNP-1 as one vector, and the frame of V-ENC-1. -/
theorem test_result_vectors :
    wordsVector words1 = 0x3F800000C020000000000000#96 ∧ frameVector frame1 = 0xA50000803F000020C0000000000C#112 := by decide
/-- R82: `make_in_frame` of the payload of `F1`, with V-ENC-1's CRC byte. -/
theorem test_make_in_frame : makeInFrame Config.tc1 payload1 = frame1 := by decide +kernel
/-- R174's example: `idx = 6` stays, nothing is counted. -/
theorem test_dec_reset :
    shows (step (ask (mk Config.tc1 .awaitingPayload 0x29#8 6 0 []) { port := .reset, operand := [] })) .idle 0x29#8 6 0
      .none = true := by decide
/-- R175: the read changes nothing. -/
theorem test_err_read :
    shows (step (ask { beforeCrc with errCount := 5 } { port := .errRead, operand := [] })) .awaitingCrc 0x0C#8 12 5
      (.count 5) = true := by decide
/-- V-DEC-2: thirteen times nothing, then the payload. -/
theorem test_frame_out14 :
    shows (exec (.frameOut14 0x3F800000#32 0xC0200000#32 0x00000000#32 0x0C#8) State.reset) .idle 0x0C#8 12 0
      (.feedAll (List.replicate 13 .nothing ++ [.emit payload1 (some words1)])) = true := by decide +kernel
/-- V-DEC-7, offset 13 bit 0: the CRC byte is one bit off. -/
theorem test_frame_in :
    shows (exec (.frameIn payload1 0x0D#8) State.reset) .idle 0x0C#8 12 1
      (.feedAll (List.replicate 13 .nothing ++ [.mismatch])) = true := by decide +kernel
/-- R34, R223: the first read after reset. -/
theorem test_reset_registers :
    shows (step (ask State.reset { port := .errRead, operand := [] })) .idle 0x00#8 0 0 (.count 0) = true := by decide
/-- R206, R234: with nothing to perform the registers stay. -/
theorem test_step_holds : shows (step beforeCrc) .awaitingCrc 0x0C#8 12 0 .none = true := by decide
/-- R10, R207 (c). -/
theorem test_configure :
    configure { rawTc1 with crcPoly := 0x31#8 } = .error .polynomial ∧
    configure { rawTc1 with crcIter := 12 } = .error .iterations ∧
    configure { rawTc1 with nIn := 0 } = .error .zeroPayload ∧
    configure rawTc1 = .ok Config.tc1 := by decide

/-! Witnesses: for each statement with hypotheses, a concrete input that meets all of them. -/

theorem witness_CrcFoldDetectsOneByteAndMissesMatchedTwo : (0x00#8 : Byte) ≠ 0x01#8 := by decide
theorem witness_EncodeCrcCoversStartByteAndPayload : (0x5A#8 : Byte) ≠ Config.tc1.outStartByte := by decide
theorem witness_FeedIdleStartBeginsAFrame : State.reset.state = .idle ∧ 0xA5#8 = State.reset.cfg.inStartByte := by decide
theorem witness_FeedIdleSkipWritesNoRegister : State.reset.state = .idle ∧ 0xA4#8 ≠ State.reset.cfg.inStartByte := by decide
theorem witness_FeedPayloadMoreFoldsStoresAdvances :
    let s := mk Config.tc3 .awaitingPayload 0x7D#8 0 0 []
    s.state = .awaitingPayload ∧ s.idx + 1 < s.cfg.nIn := by decide
theorem witness_FeedPayloadLastFoldsStoresAndAwaitsCrc :
    let s := mk Config.tc3 .awaitingPayload 0x7D#8 1 0 []
    let s1 := mk Config.tc4 .awaitingPayload 0x8E#8 0 0 []
    (s.state = .awaitingPayload ∧ s.idx + 1 = s.cfg.nIn) ∧ (s1.state = .awaitingPayload ∧ s1.idx + 1 = s1.cfg.nIn) := by
  decide
theorem witness_FeedCrcOkEmitsTheBuffer : beforeCrc.state = .awaitingCrc ∧ 0x0C#8 = beforeCrc.crcAcc := by decide
theorem witness_FeedCrcBadCountsAndReturnsToIdle : beforeCrc.state = .awaitingCrc ∧ 0x0D#8 ≠ beforeCrc.crcAcc := by decide
theorem witness_FeedRowIsRefusedWhereItIsNotTheRow :
    rowCondition .idleStart State.reset.view 0xA4#8 = false ∧ rowCondition .idleSkip State.reset.view 0xA5#8 = false ∧
    rowCondition .payloadMore State.reset.view 0x00#8 = false ∧ rowCondition .payloadLast State.reset.view 0x00#8 = false ∧
    rowCondition .crcOk beforeCrc.view 0x0D#8 = false ∧ rowCondition .crcBad beforeCrc.view 0x0C#8 = false := by decide
/-- Every clause's right side holds somewhere, at the boundaries of `idx`, and `N_IN = 1` occurs. -/
theorem witness_DispatchMapSelectsExactlyOneRow :
    let p0 := mk Config.tc3 .awaitingPayload 0x7D#8 0 0 []
    let p1 := mk Config.tc3 .awaitingPayload 0x7D#8 1 0 []
    let q := mk Config.tc4 .awaitingPayload 0x8E#8 0 0 []
    CanTakeByte State.reset ∧ CanTakeByte p0 ∧ CanTakeByte p1 ∧ CanTakeByte q ∧ CanTakeByte beforeCrc ∧
    (State.reset.state = .idle ∧ 0xA5#8 = State.reset.cfg.inStartByte ∧ 0xA4#8 ≠ State.reset.cfg.inStartByte) ∧
    (p0.state = .awaitingPayload ∧ p0.idx + 1 < p0.cfg.nIn) ∧ (p1.state = .awaitingPayload ∧ p1.idx + 1 = p1.cfg.nIn) ∧
    (beforeCrc.state = .awaitingCrc ∧ 0x0C#8 = beforeCrc.crcAcc ∧ 0x0D#8 ≠ beforeCrc.crcAcc) ∧ q.cfg.nIn = 1 := by
  decide
theorem witness_FeedStepIsTheWholeMachineFunction :
    let s := ask (mk Config.tc3 .awaitingPayload 0x7D#8 1 0 []) (feedRequest 0x11#8)
    CanTakeByte s ∧ s.script = feedRequest 0x11#8 :: [] := by decide
theorem witness_EveryByteIsUsedOnce :
    (beforeCrc.state = .awaitingCrc ∧ (0x00#8 : Byte) ≠ beforeCrc.cfg.inStartByte) ∧
    (State.reset.state = .idle ∧ 0xA5#8 = State.reset.cfg.inStartByte) := by decide
theorem witness_ErrorConditionsChangeOnlyWhatTheyRaise :
    (conditionOf (.feedIdleSkip 0xA4#8) = some .framingMismatch ∧ ∃ t, exec (.feedIdleSkip 0xA4#8) State.reset = .next t) ∧
    (conditionOf (.feedCrcBad 0x0D#8) = some .checksumMismatch ∧ ∃ t, exec (.feedCrcBad 0x0D#8) beforeCrc = .next t) :=
  ⟨⟨rfl, _, rfl⟩, ⟨rfl, _, rfl⟩⟩
theorem witness_PureOperationsChangeOnlyTheirResult :
    (isPure (.crcUpdate 0x00#8 0x01#8) = true ∧ ∃ t, exec (.crcUpdate 0x00#8 0x01#8) beforeCrc = .next t) ∧
    (isPure (.encEncode 1#32 2#32 3#32) = true ∧ ∃ t, exec (.encEncode 1#32 2#32 3#32) beforeCrc = .next t) ∧
    (isPure (.decUnpack payload1) = true ∧ ∃ t, exec (.decUnpack payload1) beforeCrc = .next t) ∧
    (isPure .errRead = true ∧ ∃ t, exec .errRead beforeCrc = .next t) :=
  ⟨⟨rfl, _, rfl⟩, ⟨rfl, _, rfl⟩, ⟨rfl, _, rfl⟩, ⟨rfl, _, rfl⟩⟩
theorem witness_PayloadRowsStoreOneByteAtTheIndex :
    let p0 := mk Config.tc3 .awaitingPayload 0x7D#8 0 0 [0x55#8, 0x66#8]
    let p1 := mk Config.tc3 .awaitingPayload 0x7D#8 1 0 [0x55#8, 0x66#8]
    (Memory.wf p0.payloadBuf = true ∧ ∃ t, exec (.feedPayloadMore 0x11#8) p0 = .next t) ∧
    (Memory.wf p1.payloadBuf = true ∧ ∃ t, exec (.feedPayloadLast 0x00#8) p1 = .next t) :=
  ⟨⟨rfl, _, rfl⟩, ⟨rfl, _, rfl⟩⟩
theorem witness_NonStoringOperationsKeepTheBuffer :
    (∃ t, exec (.feedIdleStart 0xA5#8) State.reset = .next t) ∧ (∃ t, exec (.feedIdleSkip 0xA4#8) State.reset = .next t) ∧
    (∃ t, exec (.feedCrcOk 0x0C#8) beforeCrc = .next t) ∧ (∃ t, exec (.feedCrcBad 0x0D#8) beforeCrc = .next t) ∧
    (∃ t, exec .decReset beforeCrc = .next t) := ⟨⟨_, rfl⟩, ⟨_, rfl⟩, ⟨_, rfl⟩, ⟨_, rfl⟩, ⟨_, rfl⟩⟩
theorem witness_FrameRowsWriteOnlyThePayloadBuffer :
    (∃ t, exec (.frameOut14 1#32 2#32 3#32 0x00#8) State.reset = .next t) ∧
    (∃ t, exec (.frameIn [0x11#8, 0x22#8] 0x00#8) (State.powerOn Config.tc3 []) = .next t) :=
  ⟨next_of_goesOn (by decide +kernel), next_of_goesOn (by decide +kernel)⟩
/-- `N_IN = 12` for the first clause, `N_IN = 11` for the second. -/
theorem witness_EmissionCarriesTheUnpackedWords :
    let s := mk (tc1With 11 (by decide)) .awaitingCrc 0x0C#8 11 0 []
    (beforeCrc.state = .awaitingCrc ∧ 0x0C#8 = beforeCrc.crcAcc ∧ 12 ≤ beforeCrc.cfg.nIn) ∧
    (s.state = .awaitingCrc ∧ 0x0C#8 = s.crcAcc ∧ s.cfg.nIn < 12) := by decide
theorem witness_UnpackReadsThreeWordsAtFixedOffsets :
    12 + ([] : List Byte).length = State.reset.cfg.nIn ∧
    12 + [0xFF#8].length = (State.powerOn (tc1With 13 (by decide)) []).cfg.nIn := by decide
theorem witness_UnpackIsAbsentBelowTwelveBytes :
    (State.powerOn (tc1With 11 (by decide)) []).cfg.nIn < 12 ∧ (State.powerOn Config.tc4 []).cfg.nIn < 12 := by decide
theorem witness_ErrReadReturnsTheCounterAndNothingClearsIt :
    let s := ask (mk (tc3Count (.bits 2)) .awaitingCrc 0x00#8 2 3 []) (feedRequest 0x01#8)
    (beforeCrc.state = .awaitingCrc ∧ 0x0D#8 ≠ beforeCrc.crcAcc) ∧
    (countInRange s.cfg.errW s.errCount = true ∧ ∃ t, step s = .next t) := ⟨by decide, by decide, _, rfl⟩
/-- The three cases of the counter: below the bound, at it, and unbounded. -/
theorem witness_OnlyAMismatchMovesTheCounter :
    let a := mk (tc3Count (.bits 2)) .awaitingCrc 0x00#8 2 2 []
    let b := mk (tc3Count (.bits 2)) .awaitingCrc 0x00#8 2 3 []
    let c := mk (tc3Count .inf) .awaitingCrc 0x00#8 2 3 []
    (∃ t, exec (.feedIdleStart 0xA5#8) State.reset = .next t) ∧
    ((∃ t, exec (.feedCrcBad 0x01#8) a = .next t) ∧ a.cfg.errW = .bits 2 ∧ a.errCount < 2 ^ 2 - 1) ∧
    ((∃ t, exec (.feedCrcBad 0x01#8) b = .next t) ∧ b.cfg.errW = .bits 2 ∧ b.errCount = 2 ^ 2 - 1) ∧
    ((∃ t, exec (.feedCrcBad 0x01#8) c = .next t) ∧ c.cfg.errW = .inf) :=
  ⟨⟨_, rfl⟩, ⟨⟨_, rfl⟩, rfl, by decide⟩, ⟨⟨_, rfl⟩, rfl, rfl⟩, ⟨_, rfl⟩, rfl⟩
theorem witness_ErrCountNeverAffectsDecoding :
    ∃ t, run 2 (beforeCrc.issue [feedRequest 0x0D#8, { port := .errRead, operand := [] }]) = .next t := ⟨_, rfl⟩
theorem witness_StatusOutputShowsTheState :
    State.reset.state = .idle ∧ (mk Config.tc3 .awaitingPayload 0x7D#8 0 0 []).state = .awaitingPayload ∧
    beforeCrc.state = .awaitingCrc := by decide
/-- `F1` is valid; with another CRC byte it is the right length with the right start byte. -/
theorem witness_ValidFrameFromIdleIsEmittedAndNoOther :
    let bad : List Byte := 0xA5#8 :: (payload1 ++ [0x0D#8])
    State.reset.state = .idle ∧ Memory.wf State.reset.payloadBuf = true ∧ validInFrame State.reset.cfg frame1 = true ∧
    bad.length = State.reset.cfg.nIn + 2 ∧ bad[0]? = some State.reset.cfg.inStartByte ∧ (feedAll bad State.reset).isSome := by
  decide +kernel
theorem witness_GarbageBeforeAFrameDoesNoHarm :
    State.reset.state = .idle ∧ Memory.wf State.reset.payloadBuf = true ∧
    (∀ b ∈ [0x00#8, 0xFF#8, 0x5A#8, 0xA4#8, 0x25#8, 0x0C#8, 0x72#8], b ≠ State.reset.cfg.inStartByte) ∧
    validInFrame State.reset.cfg frame1 = true := by decide +kernel
/-- The lengths 0 and `N_IN`, with a payload byte of the start byte's value. -/
theorem witness_AFrameOnceStartedTakesItsFixedLength :
    let s := State.powerOn Config.tc3 []
    s.state = .idle ∧ Memory.wf s.payloadBuf = true ∧ ([] : List Byte).length ≤ s.cfg.nIn ∧
    [0x7E#8, 0x00#8].length ≤ s.cfg.nIn ∧ [0x7E#8, 0x00#8].length = s.cfg.nIn := by decide
theorem witness_OneChangedByteOfAFrameIsNeverEmitted :
    State.reset.state = .idle ∧ Memory.wf State.reset.payloadBuf = true ∧ Loopback State.reset.cfg ∧
    (0x01#8 : Byte) ≠ 0x00#8 ∧ (1 ≤ 1 ∧ 1 ≤ 13) ∧ (1 ≤ 13 ∧ 13 ≤ 13) := by decide
/-- V-DEC-8: its clause `k = 0`, where the changed frame begins with `A4`. -/
theorem witness_OneChangedByteOfAFrameIsNeverEmitted_atOffsetZero :
    let k := 0
    State.reset.state = .idle ∧ Memory.wf State.reset.payloadBuf = true ∧ Loopback State.reset.cfg ∧
    (0x01#8 : Byte) ≠ 0x00#8 ∧ k = 0 ∧ (frame1.modify k (fun b => b ^^^ 0x01#8))[0]? = some 0xA4#8 := by decide
/-- TC1 for the loopback clause, TC2 for the other: no byte of its frame is `AA`. -/
theorem witness_LoopbackReturnsTheEncodedWords :
    let s := State.powerOn Config.tc2 []
    (State.reset.state = .idle ∧ Memory.wf State.reset.payloadBuf = true ∧ Loopback State.reset.cfg) ∧
    (s.state = .idle ∧ Memory.wf s.payloadBuf = true ∧ s.cfg.inStartByte ≠ s.cfg.outStartByte ∧
      ∀ b ∈ encodeFrame s.cfg 0x3F800000#32 0xC0200000#32 0x00000000#32, b ≠ s.cfg.inStartByte) := by decide +kernel
theorem witness_ValidFramesFoldToZeroAndAreUnique :
    payload1.length = Config.tc1.nIn ∧ payload1.length = 12 ∧ validInFrame Config.tc1 frame1 = true ∧
    validOutFrame Config.tc1 frame1 = true := by decide +kernel
theorem witness_FrameRowsFeedTheirBytes :
    CanTakeByte State.reset ∧ CanTakeByte beforeCrc ∧ CanTakeByte (mk Config.tc3 .awaitingPayload 0x7D#8 1 0 []) := by decide
theorem witness_InboundFrameFromIdleIsEmittedOrCounted :
    State.reset.state = .idle ∧ Memory.wf State.reset.payloadBuf = true ∧ payload1.length = State.reset.cfg.nIn ∧
    fold State.reset.cfg.crcInit (State.reset.cfg.inStartByte :: payload1) = 0x0C#8 := by decide +kernel
theorem witness_FeedingASequenceIsTheRunOfItsSteps :
    (feedAll frame1 { State.reset with script := [] }).isSome = true := by decide +kernel
theorem witness_StepRunsTheDecodedOperation :
    let s := ask State.reset (feedRequest 0xA5#8)
    let e := ask State.reset { port := .feed, operand := [] }
    (s.script = feedRequest 0xA5#8 :: [] ∧ decode s.view (feedRequest 0xA5#8) = .ok (.feedIdleStart 0xA5#8)) ∧
    (e.script = { port := .feed, operand := [] } :: [] ∧
      decode e.view { port := .feed, operand := [] } = .error .operandLength) ∧
    State.reset.script = [] := by decide
/-- The decoder of V-DEC-2 line 12 is consistent, and steps. -/
theorem witness_EveryStepKeepsTheInvariant :
    let s := ask beforeCrc (feedRequest 0x0D#8)
    Consistent s ∧ ∃ t, step s = .next t :=
  ⟨⟨by decide, by decide, by decide, by decide +kernel, by decide, by decide, by decide⟩, next_of_goesOn (by decide)⟩
theorem witness_PowerOnMeetsTheInvariant :
    Memory.wf [(0, 0x5A#8), (11, 0xFF#8)] = true ∧ Memory.within [(0, 0x5A#8), (11, 0xFF#8)] Config.tc1.nIn = true := by decide
theorem witness_ConfigurationNeverChanges : ∃ t, run 2 (beforeCrc.issue [feedRequest 0x0D#8]) = .next t := ⟨_, rfl⟩
theorem witness_EveryRequestedOperationCompletes :
    let s := ask beforeCrc (feedRequest 0x0D#8)
    let u := ask State.reset (encode Config.tc1 (.decUnpack payload1))
    (CanTakeByte s ∧ s.script = feedRequest 0x0D#8 :: []) ∧
    (CanTakeByte u ∧ WellFormed u.cfg (.decUnpack payload1) = true ∧ Selected u.view (.decUnpack payload1) = true ∧
      u.script = encode u.cfg (.decUnpack payload1) :: []) := by decide
theorem witness_PureOperationsBetweenTwoPartsOfAFrameDoNotShow :
    (∀ i ∈ [Instr.crcUpdate 0x29#8 0xBC#8, Instr.errRead, Instr.decUnpack payload1],
      isPure i = true ∧ WellFormed State.reset.cfg i = true) ∧
    ∃ t, run ((frame1.take 7).length + (frame1.drop 7).length)
      { State.reset with script := (frame1.take 7).map feedRequest ++ ((frame1.drop 7).map feedRequest ++ []) } = .next t :=
  ⟨by decide, next_of_goesOn (by decide +kernel)⟩
theorem witness_RequestsTogetherAreReadFeedReset :
    CanTakeByte beforeCrc ∧ beforeCrc.script = [] ∧ CanTakeByte (mk Config.tc3 .awaitingPayload 0x7D#8 1 0 []) := by decide
/-- Each constructor is well-formed and selected somewhere. -/
theorem witness_DecodeReturnsTheEncodedOperation :
    let i := resetView Config.tc1
    let p0 := (mk Config.tc3 .awaitingPayload 0x7D#8 0 0 []).view
    let p1 := (mk Config.tc3 .awaitingPayload 0x7D#8 1 0 []).view
    let ok := fun (v : FeedView) (x : Instr) => WellFormed v.cfg x && Selected v x
    (ok i (.crcUpdate 0x00#8 0x00#8) && ok i (.encEncode 0#32 0#32 0#32) && ok i (.feedIdleStart 0xA5#8) &&
      ok i (.feedIdleSkip 0x00#8) && ok p0 (.feedPayloadMore 0x00#8) && ok p1 (.feedPayloadLast 0x00#8) &&
      ok beforeCrc.view (.feedCrcOk 0x0C#8) && ok beforeCrc.view (.feedCrcBad 0x00#8) && ok i (.decUnpack payload1) &&
      ok i .decReset && ok i .errRead && ok i (.frameOut14 0#32 0#32 0#32 0x00#8) && ok i (.frameIn payload1 0x00#8)) =
        true := by decide
theorem witness_EveryDecodedRequestIsTheEncodingOfItsOperation :
    decode (resetView Config.tc1) (feedRequest 0xA5#8) = .ok (.feedIdleStart 0xA5#8) := by decide
theorem witness_OperandVectorHasOffsetZeroLeftmost : frame1.length = 14 ∧ 0 < 14 ∧ 13 < 14 := by decide
theorem witness_MadeInboundFrameIsTheOneValidAndIsEmitted :
    payload1.length = State.reset.cfg.nIn ∧ State.reset.state = .idle ∧ Memory.wf State.reset.payloadBuf = true ∧
    validInFrame State.reset.cfg frame1 = true ∧ (frame1.drop 1).take State.reset.cfg.nIn = payload1 := by decide +kernel
theorem witness_ConfigurationIsRefusedOrBuiltAsAsked :
    (rawTc1.crcPoly = 0x07#8 ∧ rawTc1.crcIter = 8 ∧ 1 ≤ rawTc1.nIn) ∧
    (RawConfig.nIn { rawTc1 with nIn := 1 } = 1 ∧ RawConfig.nIn { rawTc1 with nIn := 0 } = 0) ∧
    RawConfig.crcPoly { rawTc1 with crcPoly := 0x08#8 } ≠ 0x07#8 ∧ RawConfig.crcIter { rawTc1 with crcIter := 12 } ≠ 8 := by
  decide

end Sys2Proof.Tests
end

section
/-! PROOFS. The registers and outputs of one decoder (10_state.md): the codes on the status output (R39), and what power-on
reset leaves (R34). -/

namespace Sys2Proof.Machine

/-! The status output. -/

@[simp] theorem stateCode_idle : stateCode .idle = 0#2 := rfl
@[simp] theorem stateCode_awaitingPayload : stateCode .awaitingPayload = 1#2 := rfl
@[simp] theorem stateCode_awaitingCrc : stateCode .awaitingCrc = 2#2 := rfl

theorem stateCode_ne_three (d : DecState) : stateCode d ≠ 3#2 := by cases d <;> decide

@[simp] theorem State.statusState_eq (s : State) : s.statusState = stateCode s.state := rfl

/-! The counter read (R175), and the registers of the power-on state (R34). -/

@[simp] theorem exec_errRead (s : State) : exec .errRead s = .next (s.setResult (.count s.errCount)) := rfl

@[simp] theorem State.powerOn_cfg (cfg : Config) (buf : Memory) : (State.powerOn cfg buf).cfg = cfg := rfl
@[simp] theorem State.powerOn_state (cfg : Config) (buf : Memory) : (State.powerOn cfg buf).state = .idle := rfl
@[simp] theorem State.powerOn_crcAcc (cfg : Config) (buf : Memory) : (State.powerOn cfg buf).crcAcc = cfg.crcInit := rfl
@[simp] theorem State.powerOn_idx (cfg : Config) (buf : Memory) : (State.powerOn cfg buf).idx = 0 := rfl
@[simp] theorem State.powerOn_payloadBuf (cfg : Config) (buf : Memory) : (State.powerOn cfg buf).payloadBuf = buf := rfl
@[simp] theorem State.powerOn_errCount (cfg : Config) (buf : Memory) : (State.powerOn cfg buf).errCount = 0 := rfl

/-- Settles O34: the code depends on the register `state` alone, and no state has the code 3. -/
theorem statusOutputShowsTheState : Obligations.StatusOutputShowsTheState := by
  unfold Obligations.StatusOutputShowsTheState
  intro s
  rw [State.statusState_eq]
  refine ⟨?idle, ?awaitingPayload, ?awaitingCrc, stateCode_ne_three s.state⟩
  case idle => intro h; rw [h, stateCode_idle]
  case awaitingPayload => intro h; rw [h, stateCode_awaitingPayload]
  case awaitingCrc => intro h; rw [h, stateCode_awaitingCrc]

/-- Settles O47: each register by its power-on value; the read and the status output show two of them. -/
theorem powerOnLeavesTheStatedValues : Obligations.PowerOnLeavesTheStatedValues := by
  unfold Obligations.PowerOnLeavesTheStatedValues
  intro cfg buf s
  have hstate : s.state = .idle := State.powerOn_state cfg buf
  have hcount : s.errCount = 0 := State.powerOn_errCount cfg buf
  have hread : exec .errRead s = .next (s.setResult (.count 0)) := by rw [exec_errRead, hcount]
  have hstatus : s.statusState = 0#2 := by rw [State.statusState_eq, hstate, stateCode_idle]
  exact ⟨hstate, hcount, State.powerOn_crcAcc cfg buf, State.powerOn_idx cfg buf, State.powerOn_payloadBuf cfg buf,
    State.powerOn_cfg cfg buf, hread, hstatus⟩

end Sys2Proof.Machine
end

section
/-! PROOFS. A 32-bit field as four bytes (20_memory.md R55): the bytes of a concatenation, the concatenation of a word's
bytes, and from these the two inverse laws of `pack32` and `unpack32`. -/

namespace Sys2Proof.Machine

/-! Four bytes of a word, highest first. -/

theorem append_bytes_eq_self (w : Word32) :
    w.extractLsb' 24 8 ++ w.extractLsb' 16 8 ++ w.extractLsb' 8 8 ++ w.extractLsb' 0 8 = w := by
  rw [BitVec.extractLsb'_append_extractLsb'_eq_extractLsb' (show 24 = 16 + 8 from rfl),
    BitVec.extractLsb'_append_extractLsb'_eq_extractLsb' (show 16 = 8 + 8 from rfl),
    BitVec.extractLsb'_append_extractLsb'_eq_extractLsb' (show 8 = 0 + 8 from rfl)]
  exact BitVec.extractLsb'_eq_self

theorem extract_append_bytes_0 (b3 b2 b1 b0 : Byte) : (b3 ++ b2 ++ b1 ++ b0).extractLsb' 0 8 = b0 :=
  BitVec.extractLsb'_append_eq_right

theorem extract_append_bytes_8 (b3 b2 b1 b0 : Byte) : (b3 ++ b2 ++ b1 ++ b0).extractLsb' 8 8 = b1 := by
  rw [BitVec.extractLsb'_append_eq_of_le (by decide)]
  exact BitVec.extractLsb'_append_eq_right

theorem extract_append_bytes_16 (b3 b2 b1 b0 : Byte) : (b3 ++ b2 ++ b1 ++ b0).extractLsb' 16 8 = b2 := by
  rw [BitVec.extractLsb'_append_eq_of_le (by decide), BitVec.extractLsb'_append_eq_of_le (by decide)]
  exact BitVec.extractLsb'_append_eq_right

theorem extract_append_bytes_24 (b3 b2 b1 b0 : Byte) : (b3 ++ b2 ++ b1 ++ b0).extractLsb' 24 8 = b3 := by
  rw [BitVec.extractLsb'_append_eq_of_le (by decide), BitVec.extractLsb'_append_eq_of_le (by decide)]
  exact BitVec.extractLsb'_append_eq_left

/-! The layouts of R55. -/

theorem pack32_le (w : Word32) :
    pack32 .le w = [w.extractLsb' 0 8, w.extractLsb' 8 8, w.extractLsb' 16 8, w.extractLsb' 24 8] := rfl

theorem pack32_be (w : Word32) :
    pack32 .be w = [w.extractLsb' 24 8, w.extractLsb' 16 8, w.extractLsb' 8 8, w.extractLsb' 0 8] := rfl

theorem unpack32_le (b0 b1 b2 b3 : Byte) : unpack32 .le b0 b1 b2 b3 = b3 ++ b2 ++ b1 ++ b0 := rfl

theorem unpack32_be (b0 b1 b2 b3 : Byte) : unpack32 .be b0 b1 b2 b3 = b0 ++ b1 ++ b2 ++ b3 := rfl

/-! The inverse laws. -/

/-- A packed word is four bytes, and the word is what they unpack to. -/
theorem exists_pack32_eq_and_unpack32_eq (o : ByteOrder) (w : Word32) :
    ∃ b0 b1 b2 b3 : Byte, pack32 o w = [b0, b1, b2, b3] ∧ unpack32 o b0 b1 b2 b3 = w := by
  cases o with
  | le => exact ⟨_, _, _, _, pack32_le w, append_bytes_eq_self w⟩
  | be => exact ⟨_, _, _, _, pack32_be w, append_bytes_eq_self w⟩

@[simp] theorem pack32_unpack32 (o : ByteOrder) (b0 b1 b2 b3 : Byte) :
    pack32 o (unpack32 o b0 b1 b2 b3) = [b0, b1, b2, b3] := by
  cases o with
  | le =>
    rw [unpack32_le, pack32_le, extract_append_bytes_0, extract_append_bytes_8, extract_append_bytes_16,
      extract_append_bytes_24]
  | be =>
    rw [unpack32_be, pack32_be, extract_append_bytes_0, extract_append_bytes_8, extract_append_bytes_16,
      extract_append_bytes_24]

/-- Settles O11: both layouts, and the inverse laws from the bytes of a concatenation. -/
theorem packAndUnpackAreInverseInEitherOrder : Obligations.PackAndUnpackAreInverseInEitherOrder := by
  unfold Obligations.PackAndUnpackAreInverseInEitherOrder
  have default_le : defaultByteOrder = .le := rfl
  exact ⟨pack32_le, pack32_be, unpack32_le, unpack32_be, exists_pack32_eq_and_unpack32_eq, pack32_unpack32, default_le⟩

end Sys2Proof.Machine
end

section
/-! PROOFS. The dispatch map of `DEC.FEED` as the decoder applies it (30_encoding.md R78): a feed request decodes to a row
exactly where the row's condition holds. -/

namespace Sys2Proof.Machine

/-- The six rows of one byte are six different operations. -/
theorem feedInstr_inj {r r' : FeedRow} {c : Byte} : feedInstr r c = feedInstr r' c ↔ r = r' := by
  cases r <;> cases r' <;> simp [feedInstr]

theorem decode_feedRequest_of_selectRow_eq_some {v : FeedView} {c : Byte} {r : FeedRow} (h : selectRow v c = some r) :
    decode v (feedRequest c) = .ok (feedInstr r c) := by
  simp [decode, feedRequest, decodeFeed, h]

theorem decode_feedRequest_of_selectRow_eq_none {v : FeedView} {c : Byte} (h : selectRow v c = none) :
    decode v (feedRequest c) = .error .noRow := by
  simp [decode, feedRequest, decodeFeed, h]

/-- A feed request decodes to the row whose condition holds, and to no other. -/
theorem decode_feedRequest_eq_ok_iff (v : FeedView) (c : Byte) (r : FeedRow) :
    decode v (feedRequest c) = .ok (feedInstr r c) ↔ rowCondition r v c = true := by
  rw [← selectRow_eq_some_iff]
  cases h : selectRow v c with
  | none => simp [decode_feedRequest_of_selectRow_eq_none h]
  | some r' => simp [decode_feedRequest_of_selectRow_eq_some h, feedInstr_inj]

/-- Settles O19: each row by its condition; some row's condition holds where there is room for a payload byte. -/
theorem dispatchMapSelectsExactlyOneRow : Obligations.DispatchMapSelectsExactlyOneRow := by
  unfold Obligations.DispatchMapSelectsExactlyOneRow
  intro s c hroom d
  have decodes (r : FeedRow) : d = .ok (feedInstr r c) ↔ rowCondition r s.view c = true :=
    decode_feedRequest_eq_ok_iff s.view c r
  have hmore := (decodes .payloadMore).trans (rowCondition_payloadMore c s)
  refine ⟨(decodes .idleStart).trans (rowCondition_idleStart c s), (decodes .idleSkip).trans (rowCondition_idleSkip c s),
    hmore, (decodes .payloadLast).trans (rowCondition_payloadLast c s), (decodes .crcOk).trans (rowCondition_crcOk c s),
    (decodes .crcBad).trans (rowCondition_crcBad c s), ?total, ?nInOne⟩
  case total =>
    obtain ⟨r, hr⟩ := exists_rowCondition hroom c
    exact ⟨r, (decodes r).mpr hr⟩
  case nInOne =>
    intro hone hd
    have hlt : s.idx + 1 < s.cfg.nIn := (hmore.mp hd).2
    omega

end Sys2Proof.Machine
end

section
/-! PROOFS. What the CRC step sends to `0x00` (40_crc8_engine.md R107 (c), (d)): one shift, and so `update`, loses nothing, and
a sequence followed by one byte folds to `0x00` exactly when that byte is the fold of the sequence. -/

namespace Sys2Proof.Machine

/-- The polynomial's bit 0 keeps what a shift takes out of bit 7. -/
theorem crcShift_getLsbD_zero (v : Byte) : (crcShift v).getLsbD 0 = v.getLsbD 7 := by
  unfold crcShift
  cases h : v.getLsbD 7 <;> simp [crcPoly]

theorem crcShift_eq_zero_iff {v : Byte} : crcShift v = 0#8 ↔ v = 0#8 := by
  constructor
  · intro h
    have htop : v.getLsbD 7 = false := by rw [← crcShift_getLsbD_zero, h]; rfl
    have hshift : v <<< 1 = 0#8 := by
      rw [crcShift, htop] at h
      simpa using h
    refine BitVec.eq_of_getLsbD_eq fun i hi => ?_
    rw [BitVec.getLsbD_zero]
    by_cases hi7 : i = 7
    · rw [hi7, htop]
    · have hbit : (v <<< 1).getLsbD (i + 1) = false := by rw [hshift, BitVec.getLsbD_zero]
      simpa [hi, show i + 1 < 8 by omega] using hbit
  · rintro rfl; rfl

theorem crcShifts_eq_zero_iff {n : Nat} {v : Byte} : crcShifts n v = 0#8 ↔ v = 0#8 := by
  induction n generalizing v with
  | zero => rfl
  | succ n ih => rw [crcShifts, ih, crcShift_eq_zero_iff]

theorem update_eq_zero_iff {crc data : Byte} : update crc data = 0x00#8 ↔ data = crc := by
  rw [update, crcShifts_eq_zero_iff, BitVec.xor_eq_zero_iff, eq_comm]

theorem fold_snoc_eq_zero_iff {init c : Byte} {bs : List Byte} :
    fold init (bs ++ [c]) = 0x00#8 ↔ c = fold init bs := by
  rw [fold_snoc, update_eq_zero_iff]

end Sys2Proof.Machine
end

section
/-! PROOFS. The outbound frame as a list (41_frame_encoder.md R120): writing the pieces of the space `OF` one after the other
and reading it whole is their concatenation. -/

namespace Sys2Proof.Machine

/-- Bytes written at the end of what is read are appended to it. -/
theorem Memory.readBytes_writeBytes_append {m : Memory} {n : Nat} (bs : List Byte) (h : Memory.wf m = true) :
    Memory.readBytes (Memory.writeBytes m n bs) 0 (n + bs.length) = Memory.readBytes m 0 n ++ bs := by
  induction bs generalizing m n with
  | nil => simp [Memory.writeBytes]
  | cons b bs ih =>
    have hone : Memory.readBytes (Memory.write m n b) 0 (n + 1) = Memory.readBytes m 0 n ++ [b] := by
      rw [Memory.readBytes_succ_last, Memory.readBytes_write_above m b le_rfl, Nat.zero_add, Memory.read_write_same n b h]
    have hlen : n + (b :: bs).length = n + 1 + bs.length := by rw [List.length_cons]; omega
    rw [Memory.writeBytes, hlen, ih (Memory.wf_write n b h), hone, List.append_assoc, List.singleton_append]

/-- The twelve payload bytes of an outbound frame, in wire order (R71). -/
def outPayload (cfg : Config) (x y z : Word32) : List Byte :=
  pack32 cfg.byteOrder x ++ pack32 cfg.byteOrder y ++ pack32 cfg.byteOrder z

@[simp] theorem outPayload_length (cfg : Config) (x y z : Word32) : (outPayload cfg x y z).length = 12 := by
  simp [outPayload, Laws.pack32_length]

theorem encodeBody_wf (cfg : Config) (x y z : Word32) : Memory.wf (encodeBody cfg x y z) = true :=
  Memory.wf_writeBytes 9 _ (Memory.wf_writeBytes 5 _ (Memory.wf_writeBytes 1 _ (Memory.wf_writeBytes 0 _ rfl)))

theorem readBytes_encodeBody (cfg : Config) (x y z : Word32) :
    Memory.readBytes (encodeBody cfg x y z) 0 13 = cfg.outStartByte :: outPayload cfg x y z := by
  have piece (m : Memory) (n : Nat) (w : Word32) (hm : Memory.wf m = true) :
      Memory.readBytes (Memory.writeBytes m n (pack32 cfg.byteOrder w)) 0 (n + 4) =
        Memory.readBytes m 0 n ++ pack32 cfg.byteOrder w := by
    rw [← Memory.readBytes_writeBytes_append _ hm, Laws.pack32_length]
  have wf0 : Memory.wf (Memory.writeBytes [] 0 [cfg.outStartByte]) = true := Memory.wf_writeBytes 0 _ rfl
  have wf1 := Memory.wf_writeBytes 1 (pack32 cfg.byteOrder x) wf0
  have wf5 := Memory.wf_writeBytes 5 (pack32 cfg.byteOrder y) wf1
  have hstart : Memory.readBytes (Memory.writeBytes [] 0 [cfg.outStartByte]) 0 1 = [cfg.outStartByte] :=
    Memory.readBytes_writeBytes_append (n := 0) [cfg.outStartByte] rfl
  rw [encodeBody, piece _ 9 z wf5, piece _ 5 y wf1, piece _ 1 x wf0, hstart]
  simp [outPayload]

/-- R120 in closed form: start byte, three packed words, and the CRC of those thirteen bytes. -/
theorem encodeFrame_eq_outFrameBytes (cfg : Config) (x y z : Word32) :
    encodeFrame cfg x y z = outFrameBytes cfg x y z (crcOf cfg (cfg.outStartByte :: outPayload cfg x y z)) := by
  rw [encodeFrame, show outFrameLen = 13 + [crcOf cfg (cfg.outStartByte :: outPayload cfg x y z)].length from rfl,
    readBytes_encodeBody, ← crcOf, Memory.readBytes_writeBytes_append _ (encodeBody_wf cfg x y z), readBytes_encodeBody]
  rfl

end Sys2Proof.Machine
end

section
/-! PROOFS. Valid frames (30_encoding.md R83). Both directions are one predicate, with a start byte and a payload length of
their own: a valid frame is start byte, payload, and the CRC of these, so the payload determines it, and it folds to `0x00`. -/

namespace Sys2Proof.Machine

/-- R83 for start byte `start` and `n` payload bytes. -/
def validFrame (cfg : Config) (start : Byte) (n : Nat) (f : List Byte) : Bool :=
  f.length == n + 2 && f[0]? == some start && f[n + 1]? == some (fold cfg.crcInit (f.take (n + 1)))

/-- Start byte, payload, and the CRC of the bytes before it. -/
def frameOf (cfg : Config) (start : Byte) (p : List Byte) : List Byte := start :: (p ++ [crcOf cfg (start :: p)])

theorem validInFrame_eq_validFrame (cfg : Config) : validInFrame cfg = validFrame cfg cfg.inStartByte cfg.nIn := rfl

theorem validOutFrame_eq_validFrame (cfg : Config) : validOutFrame cfg = validFrame cfg cfg.outStartByte 12 := rfl

theorem makeInFrame_eq_frameOf (cfg : Config) (p : List Byte) : makeInFrame cfg p = frameOf cfg cfg.inStartByte p := rfl

theorem encodeFrame_eq_frameOf (cfg : Config) (x y z : Word32) :
    encodeFrame cfg x y z = frameOf cfg cfg.outStartByte (outPayload cfg x y z) :=
  encodeFrame_eq_outFrameBytes cfg x y z

theorem exists_cons_append_singleton {n : Nat} {f : List Byte} (h : f.length = n + 2) :
    ∃ (b c : Byte) (p : List Byte), p.length = n ∧ f = b :: (p ++ [c]) := by
  obtain ⟨b, rest, rfl⟩ := List.exists_cons_of_length_eq_add_one h
  have hrest : rest.length = n + 1 := by simpa using h
  have hne : rest ≠ [] := List.ne_nil_of_length_eq_add_one hrest
  exact ⟨b, rest.getLast hne, rest.dropLast, by simp [hrest], by rw [List.dropLast_append_getLast]⟩

section Shape
variable {cfg : Config} {start : Byte} {p : List Byte}

theorem validFrame_cons_append_iff {b c : Byte} :
    validFrame cfg start p.length (b :: (p ++ [c])) = true ↔ b = start ∧ c = crcOf cfg (b :: p) := by
  simp [validFrame, crcOf]

/-- Validity is length, start byte and a zero fold: the CRC byte is the fold of the bytes before it. -/
theorem validFrame_iff_fold_eq_zero {n : Nat} {f : List Byte} :
    validFrame cfg start n f = true ↔ f.length = n + 2 ∧ f[0]? = some start ∧ fold cfg.crcInit f = 0x00#8 := by
  by_cases hlen : f.length = n + 2
  · obtain ⟨b, c, p, rfl, rfl⟩ := exists_cons_append_singleton hlen
    rw [validFrame_cons_append_iff, ← List.cons_append, fold_snoc_eq_zero_iff]
    simp [crcOf]
  · simp [validFrame, hlen]

/-- The valid frame with a given payload is `frameOf`, and no other. -/
theorem validFrame_and_payload_iff {f : List Byte} :
    validFrame cfg start p.length f = true ∧ (f.drop 1).take p.length = p ↔ f = frameOf cfg start p := by
  constructor
  · rintro ⟨hvalid, hpayload⟩
    obtain ⟨b, c, q, hq, rfl⟩ := exists_cons_append_singleton (validFrame_iff_fold_eq_zero.mp hvalid).1
    obtain rfl : q = p := by simpa [← hq] using hpayload
    obtain ⟨rfl, rfl⟩ := validFrame_cons_append_iff.mp hvalid
    rfl
  · rintro rfl
    exact ⟨validFrame_cons_append_iff.mpr ⟨rfl, rfl⟩, by simp [frameOf]⟩

theorem existsUnique_validFrame {n : Nat} (h : p.length = n) :
    ∃! f : List Byte, validFrame cfg start n f = true ∧ (f.drop 1).take n = p := by
  subst h
  simp only [validFrame_and_payload_iff, existsUnique_eq]

end Shape

theorem validOutFrame_encodeFrame (cfg : Config) (x y z : Word32) : validOutFrame cfg (encodeFrame cfg x y z) = true := by
  rw [encodeFrame_eq_frameOf, validOutFrame_eq_validFrame, ← outPayload_length cfg x y z]
  exact (validFrame_and_payload_iff.mpr rfl).1

/-- Settles O40: each direction is an instance of `validFrame`. -/
theorem validFramesFoldToZeroAndAreUnique : Obligations.ValidFramesFoldToZeroAndAreUnique := by
  unfold Obligations.ValidFramesFoldToZeroAndAreUnique
  simp only [validInFrame_eq_validFrame, validOutFrame_eq_validFrame]
  exact ⟨fun _ _ => validFrame_iff_fold_eq_zero, fun _ _ => validFrame_iff_fold_eq_zero, validOutFrame_encodeFrame,
    fun _ _ => existsUnique_validFrame, fun _ _ => existsUnique_validFrame⟩

end Sys2Proof.Machine
end

section
/-! PROOFS. The CRC step in closed form (40_crc8_engine.md): R100's loop is `crcShift` eight times, and R106 gives each bit of the
result, and the table, which is spanned by the images of the single-bit inputs. -/

namespace Sys2Proof.Machine

/-! The loop (R100). -/

@[simp] theorem exec_crcUpdate (crc data : Byte) (s : State) :
    exec (.crcUpdate crc data) s = .next (s.setResult (.crcOut (update crc data))) := rfl

/-- One iteration as R100 writes it: eight bits of a byte are the whole byte. -/
theorem crcShift_eq_loop_body (v : Byte) :
    crcShift v = if v[7] = true then ((v <<< 1) &&& 0xFF#8) ^^^ 0x07#8 else (v <<< 1) &&& 0xFF#8 := by
  rw [show 0xFF#8 = BitVec.allOnes 8 from rfl, BitVec.and_allOnes]
  rfl

/-- Settles O1: `crcIter` is eight, and each iteration is the loop body of R100. -/
theorem crcUpdateReturnsTheEightShiftResult : Obligations.CrcUpdateReturnsTheEightShiftResult := by
  unfold Obligations.CrcUpdateReturnsTheEightShiftResult
  intro crc data s
  simp only [← crcShift_eq_loop_body]
  exact exec_crcUpdate crc data s

/-! The bit equations (R106). -/

/-- One iteration bit by bit: the bit shifted out comes back at the three bits of the polynomial. -/
theorem crcShift_getElem (v : Byte) :
    (crcShift v)[7] = v[6] ∧ (crcShift v)[6] = v[5] ∧ (crcShift v)[5] = v[4] ∧ (crcShift v)[4] = v[3] ∧
      (crcShift v)[3] = v[2] ∧ (crcShift v)[2] = (v[1] ^^ v[7]) ∧ (crcShift v)[1] = (v[0] ^^ v[7]) ∧
      (crcShift v)[0] = v[7] := by
  unfold crcShift
  rw [BitVec.getLsbD_eq_getElem (by decide)]
  cases v[7] <;> simp [crcPoly]

/-- The eight iterations bit by bit. What bit 7 adds in the first iteration is shifted out in the seventh and the eighth, and
cancels where these two add it to the same bit. -/
theorem crcShifts_eight_getElem (v : Byte) :
    let o := crcShifts 8 v
    o[7] = (v[7] ^^ v[6] ^^ v[5]) ∧ o[6] = (v[6] ^^ v[5] ^^ v[4]) ∧ o[5] = (v[5] ^^ v[4] ^^ v[3]) ∧
      o[4] = (v[4] ^^ v[3] ^^ v[2]) ∧ o[3] = (v[7] ^^ v[3] ^^ v[2] ^^ v[1]) ∧
      o[2] = (v[6] ^^ v[2] ^^ v[1] ^^ v[0]) ∧ o[1] = (v[6] ^^ v[1] ^^ v[0]) ∧ o[0] = (v[7] ^^ v[6] ^^ v[0]) := by
  simp only [crcShifts, crcShift_getElem, Bool.xor_comm, Bool.xor_left_comm, Bool.xor_assoc, Bool.xor_self,
    Bool.false_xor, and_self]

/-! The table (R106): by linearity (R107 (a)) each further bit of the index doubles it. -/

theorem update_zero_xor (a b : Byte) : update 0#8 (a ^^^ b) = update 0#8 a ^^^ update 0#8 b := by
  simp only [update, BitVec.zero_xor, crcShifts_xor]

/-- `T[0 .. 2^n)`: `update(0x00, v)` for the values of `n` bits, in ascending order. -/
def updateTable (n : Nat) : List Byte := (List.range (2 ^ n)).map fun k => update 0#8 (BitVec.ofNat 8 k)

theorem two_pow_add_eq_xor {n k : Nat} (h : k < 2 ^ n) : 2 ^ n + k = 2 ^ n ^^^ k := by
  rw [show 2 ^ n + k = 2 ^ n ||| k by simpa using Nat.two_pow_add_eq_or_of_lt h 1]
  refine Nat.eq_of_testBit_eq fun i => ?_
  by_cases hi : n = i
  · subst hi; simp [Nat.testBit_lt_two_pow h]
  · simp [Nat.testBit_two_pow_of_ne hi]

theorem update_two_pow_add {n k : Nat} (h : k < 2 ^ n) :
    update 0#8 (BitVec.ofNat 8 (2 ^ n + k)) =
      update 0#8 (BitVec.ofNat 8 (2 ^ n)) ^^^ update 0#8 (BitVec.ofNat 8 k) := by
  rw [two_pow_add_eq_xor h, BitVec.ofNat_xor, update_zero_xor]

/-- The upper half of the table is the lower half with the next single-bit image XORed in. -/
theorem updateTable_succ (n : Nat) :
    updateTable (n + 1) =
      updateTable n ++ (updateTable n).map fun o => update 0#8 (BitVec.ofNat 8 (2 ^ n)) ^^^ o := by
  simp only [updateTable, pow_succ, mul_two, List.range_add, List.map_append, List.map_map, Function.comp_def]
  rw [List.map_congr_left fun k hk => update_two_pow_add (List.mem_range.mp hk)]

/-- The printed table is spanned by the single-bit images: its first row, the values of four bits, is doubled four times. -/
theorem crcTable_eq_updateTable : crcTable = updateTable 8 := by
  have hrow : updateTable 4 = crcTable.take 16 := rfl
  simp only [updateTable_succ 7, updateTable_succ 6, updateTable_succ 5, updateTable_succ 4, hrow,
    List.map_append, ← List.append_assoc]
  rfl

theorem crcTable_length : crcTable.length = 256 := by
  simp [crcTable_eq_updateTable, updateTable]

theorem crcTable_getElem? (v : Byte) : crcTable[v.toNat]? = some (update 0#8 v) := by
  rw [crcTable_eq_updateTable, updateTable, List.getElem?_map, List.getElem?_range v.isLt]
  simp

/-- Settles O2: the result depends on `crc XOR data` alone, where the table is read and the bits are those of the eight
iterations. -/
theorem crcUpdateAgreesWithTableAndBitEquations : Obligations.CrcUpdateAgreesWithTableAndBitEquations := by
  unfold Obligations.CrcUpdateAgreesWithTableAndBitEquations
  refine ⟨crcTable_length, fun crc data => ⟨?_, crcShifts_eight_getElem (crc ^^^ data)⟩⟩
  rw [update_eq, crcTable_getElem?]

end Sys2Proof.Machine
end

section
/-! PROOFS. What another operand does to the CRC (40_crc8_engine.md R107): the step is injective in each operand, and the fold in
its initial value. -/

namespace Sys2Proof.Machine

theorem crcShifts_inj {n : Nat} {a b : Byte} : crcShifts n a = crcShifts n b ↔ a = b := by
  rw [← BitVec.xor_eq_zero_iff, ← crcShifts_xor, crcShifts_eq_zero_iff, BitVec.xor_eq_zero_iff]

theorem update_left_inj {crc crc' data : Byte} : update crc data = update crc' data ↔ crc = crc' := by
  rw [update, update, crcShifts_inj, BitVec.xor_left_inj]

theorem update_right_inj {crc data data' : Byte} : update crc data = update crc data' ↔ data = data' := by
  rw [update, update, crcShifts_inj, BitVec.xor_right_inj]

theorem fold_left_inj {init init' : Byte} {bs : List Byte} : fold init bs = fold init' bs ↔ init = init' := by
  induction bs generalizing init init' with
  | nil => rfl
  | cons b bs ih => rw [fold_cons, fold_cons, ih, update_left_inj]

end Sys2Proof.Machine
end

section
/-! PROOFS. The frame encoder (41_frame_encoder.md): the parts of its frame by offset (R120 to R123), and the three words read
back from its payload (R127). -/

namespace Sys2Proof.Machine

@[simp] theorem exec_encEncode (x y z : Word32) (s : State) :
    exec (.encEncode x y z) s = .next (s.setResult (.frame (encodeFrame s.cfg x y z))) := rfl

/-! The frame as the thirteen bytes it covers and their CRC. -/

theorem encodeFrame_eq_append_crc (cfg : Config) (x y z : Word32) :
    encodeFrame cfg x y z =
      (cfg.outStartByte :: outPayload cfg x y z) ++ [crcOf cfg (cfg.outStartByte :: outPayload cfg x y z)] :=
  encodeFrame_eq_frameOf cfg x y z

@[simp] theorem encodeFrame_length (cfg : Config) (x y z : Word32) : (encodeFrame cfg x y z).length = 14 := by
  simp [encodeFrame_eq_append_crc]

theorem take_encodeFrame (cfg : Config) (x y z : Word32) :
    (encodeFrame cfg x y z).take 13 = cfg.outStartByte :: outPayload cfg x y z := by
  rw [encodeFrame_eq_append_crc]
  exact List.take_left' (by simp)

theorem encodeFrame_getElem?_crc (cfg : Config) (x y z : Word32) :
    (encodeFrame cfg x y z)[13]? = some (crcOf cfg (cfg.outStartByte :: outPayload cfg x y z)) := by
  simp [encodeFrame_eq_append_crc]

/-- Settles O6: the closed form of the frame, with its payload written as three packed words. -/
theorem encodeReturnsStartWordsAndCrc : Obligations.EncodeReturnsStartWordsAndCrc := by
  unfold Obligations.EncodeReturnsStartWordsAndCrc
  intro x y z s body
  have hbody : body = s.cfg.outStartByte :: outPayload s.cfg x y z := by simp [body, outPayload]
  rw [exec_encEncode, encodeFrame_eq_append_crc, ← hbody]
  rfl

/-- Settles O7: the frame is valid for every operand triple, and its last byte follows the bytes it is computed from. -/
theorem encodeAlwaysYieldsAValidFourteenByteFrame : Obligations.EncodeAlwaysYieldsAValidFourteenByteFrame := by
  unfold Obligations.EncodeAlwaysYieldsAValidFourteenByteFrame
  intro x y z s
  refine ⟨encodeFrame s.cfg x y z, exec_encEncode x y z s, encodeFrame_length s.cfg x y z,
    validOutFrame_encodeFrame s.cfg x y z, ?lastByte⟩
  case lastByte =>
    rw [encodeFrame_eq_append_crc, List.getLast?_concat, List.dropLast_concat]
    rfl

/-- Settles O8: the payload does not depend on the start byte, and the fold is injective in what the start byte makes of
`CRC_INIT`. -/
theorem encodeCrcCoversStartByteAndPayload : Obligations.EncodeCrcCoversStartByteAndPayload := by
  unfold Obligations.EncodeCrcCoversStartByteAndPayload
  intro cfg x y z b
  refine ⟨?covers, ?otherStart⟩
  case covers =>
    rw [take_encodeFrame]
    exact encodeFrame_getElem?_crc cfg x y z
  case otherStart =>
    intro hb heq
    have hpayload : outPayload { cfg with outStartByte := b } x y z = outPayload cfg x y z := rfl
    rw [encodeFrame_getElem?_crc, encodeFrame_getElem?_crc, hpayload, Option.some_inj] at heq
    exact hb (update_right_inj.mp (fold_left_inj.mp heq))

/-! The payload, and the words read back from it. -/

theorem encodeFrame_payload (cfg : Config) (x y z : Word32) :
    ((encodeFrame cfg x y z).drop 1).take 12 = outPayload cfg x y z := by
  rw [List.take_drop, take_encodeFrame]
  rfl

/-- The twelve payload bytes are three groups of four, and each unpacks to its word. -/
theorem exists_outPayload_eq_and_unpack32_eq (cfg : Config) (x y z : Word32) :
    ∃ b1 b2 b3 b4 b5 b6 b7 b8 b9 b10 b11 b12 : Byte,
      outPayload cfg x y z = [b1, b2, b3, b4, b5, b6, b7, b8, b9, b10, b11, b12] ∧
      unpack32 cfg.byteOrder b1 b2 b3 b4 = x ∧ unpack32 cfg.byteOrder b5 b6 b7 b8 = y ∧
      unpack32 cfg.byteOrder b9 b10 b11 b12 = z := by
  obtain ⟨b1, b2, b3, b4, hx, hxw⟩ := exists_pack32_eq_and_unpack32_eq cfg.byteOrder x
  obtain ⟨b5, b6, b7, b8, hy, hyw⟩ := exists_pack32_eq_and_unpack32_eq cfg.byteOrder y
  obtain ⟨b9, b10, b11, b12, hz, hzw⟩ := exists_pack32_eq_and_unpack32_eq cfg.byteOrder z
  exact ⟨b1, b2, b3, b4, b5, b6, b7, b8, b9, b10, b11, b12, by rw [outPayload, hx, hy, hz]; rfl, hxw, hyw, hzw⟩

theorem unpack3_outPayload (cfg : Config) (x y z : Word32) :
    unpack3 cfg.byteOrder (outPayload cfg x y z) = some { roll := x, pitch := y, yaw := z } := by
  obtain ⟨_, _, _, _, _, _, _, _, _, _, _, _, hp, rfl, rfl, rfl⟩ := exists_outPayload_eq_and_unpack32_eq cfg x y z
  rw [hp]
  rfl

theorem decodePayload_encodeFrame (cfg : Config) (x y z : Word32) :
    decodePayload cfg.byteOrder (encodeFrame cfg x y z) = some { roll := x, pitch := y, yaw := z } := by
  rw [decodePayload, encodeFrame_payload, unpack3_outPayload]

theorem encodeFrame_inj {cfg : Config} {x y z x' y' z' : Word32} :
    encodeFrame cfg x y z = encodeFrame cfg x' y' z' ↔ x = x' ∧ y = y' ∧ z = z' := by
  constructor
  · intro h
    have hwords := congrArg (decodePayload cfg.byteOrder) h
    rw [decodePayload_encodeFrame, decodePayload_encodeFrame] at hwords
    simpa using hwords
  · rintro ⟨rfl, rfl, rfl⟩; rfl

/-! The byte order. -/

theorem pack32_be_eq_reverse (w : Word32) : pack32 .be w = (pack32 .le w).reverse := rfl

theorem encodeFrame_getElem?_start (cfg : Config) (x y z : Word32) :
    (encodeFrame cfg x y z)[0]? = some cfg.outStartByte := by
  simp [encodeFrame_eq_append_crc]

/-- The three fields of the frame, at offsets 1, 5 and 9. -/
theorem encodeFrame_fields (cfg : Config) (x y z : Word32) :
    ((encodeFrame cfg x y z).drop 1).take 4 = pack32 cfg.byteOrder x ∧
      ((encodeFrame cfg x y z).drop 5).take 4 = pack32 cfg.byteOrder y ∧
      ((encodeFrame cfg x y z).drop 9).take 4 = pack32 cfg.byteOrder z := by
  rw [encodeFrame_eq_append_crc, outPayload]
  cases cfg.byteOrder <;> exact ⟨rfl, rfl, rfl⟩

/-- Settles O9: the payload unpacks to the three words, and each field is the packed word of its byte order. -/
theorem encodeIsInjectiveAndKeepsEveryWord : Obligations.EncodeIsInjectiveAndKeepsEveryWord := by
  unfold Obligations.EncodeIsInjectiveAndKeepsEveryWord
  refine ⟨fun _ _ _ _ _ _ _ => encodeFrame_inj.mp, ?words, ?order⟩
  case words =>
    intro cfg x y z f
    rw [show (f.drop 1).take 12 = outPayload cfg x y z from encodeFrame_payload cfg x y z]
    exact exists_outPayload_eq_and_unpack32_eq cfg x y z
  case order =>
    intro cfg x y z fl fb
    obtain ⟨hlx, hly, hlz⟩ := encodeFrame_fields { cfg with byteOrder := .le } x y z
    obtain ⟨hbx, hby, hbz⟩ := encodeFrame_fields { cfg with byteOrder := .be } x y z
    simp only [fl, fb, encodeFrame_getElem?_start, hlx, hly, hlz, hbx, hby, hbz, pack32_be_eq_reverse, and_self]

end Sys2Proof.Machine
end

section
/-! PROOFS. A whole inbound frame fed to a decoder in `Idle` (42_frame_decoder.md R155), and the loopback of the encoder's
frames (41_frame_encoder.md R128). -/

namespace Sys2Proof.Machine

/-- After the start byte every byte that fits is payload, of any value, folded on from the start byte. -/
theorem feedAll_start_payload {s : State} {p : List Byte} (hs : s.state = .idle) (hwf : Memory.wf s.payloadBuf = true)
    (hfit : p.length ≤ s.cfg.nIn) :
    ∃ t, feedAll (s.cfg.inStartByte :: p) s = some (t, List.replicate (p.length + 1) .nothing) ∧
      AfterPayload (feedIdleStart s.cfg.inStartByte s).1 p t := by
  have hstart : feedByte s.cfg.inStartByte s = some ((feedIdleStart s.cfg.inStartByte s).1, .nothing) :=
    feedByte_eq_of_rowCondition ((rowCondition_idleStart _ s).mpr ⟨hs, rfl⟩)
  obtain ⟨t, hfeed, hafter⟩ := feedAll_payload (s := (feedIdleStart s.cfg.inStartByte s).1) p rfl s.cfg.nIn_pos
    (show 0 + p.length ≤ s.cfg.nIn by omega) hwf
  refine ⟨t, ?_, hafter⟩
  simp [feedAll, hstart, hfeed, List.replicate_succ]

/-- The whole payload leaves the decoder awaiting the CRC of start byte and payload, with the payload in its buffer. -/
theorem AfterPayload.of_start_full {s t : State} {p : List Byte} (hlen : p.length = s.cfg.nIn)
    (h : AfterPayload (feedIdleStart s.cfg.inStartByte s).1 p t) :
    t.state = .awaitingCrc ∧ t.crcAcc = crcOf s.cfg (s.cfg.inStartByte :: p) ∧ t.idx = s.cfg.nIn ∧ t.payload = p ∧
      t.errCount = s.errCount ∧ t.cfg = s.cfg := by
  have hcfg : t.cfg = s.cfg := h.cfg
  have hidx : (feedIdleStart s.cfg.inStartByte s).1.idx + p.length = s.cfg.nIn := by rw [← hlen]; exact Nat.zero_add _
  refine ⟨?state, h.crc, h.idx.trans hidx, ?payload, h.errCount, hcfg⟩
  case state => rw [h.state, hidx]; exact if_pos rfl
  case payload =>
    rw [State.payload, hcfg, ← hidx, h.buf]
    rfl

/-- From `Idle` the frame of a payload of `N_IN` bytes is emitted on its last byte and on no other. -/
theorem feedAll_makeInFrame {s : State} {p : List Byte} (hs : s.state = .idle) (hwf : Memory.wf s.payloadBuf = true)
    (hlen : p.length = s.cfg.nIn) :
    ∃ t, feedAll (makeInFrame s.cfg p) s =
        some (t, List.replicate (s.cfg.nIn + 1) .nothing ++ [.emit p (wordsOf s.cfg p)]) ∧
      t.state = .idle ∧ t.crcAcc = crcOf s.cfg (s.cfg.inStartByte :: p) ∧ t.idx = s.cfg.nIn ∧
      t.errCount = s.errCount := by
  obtain ⟨u, hfeed, hafter⟩ := feedAll_start_payload hs hwf hlen.le
  obtain ⟨hstate, hcrc, hidx, hpayload, herr, hcfg⟩ := hafter.of_start_full hlen
  have hok : feedByte (crcOf s.cfg (s.cfg.inStartByte :: p)) u = some (u.setState .idle, .emit p (wordsOf s.cfg p)) := by
    rw [feedByte_eq_of_rowCondition ((rowCondition_crcOk _ u).mpr ⟨hstate, hcrc.symm⟩), rowEffect, feedCrcOk, hpayload, hcfg]
  refine ⟨u.setState .idle, ?_, rfl, hcrc, hidx, herr⟩
  rw [makeInFrame_eq_frameOf, frameOf, ← List.cons_append, feedAll_append, hfeed]
  simp [feedAll, hok, hlen]

/-- In the loopback configuration an outbound frame is the inbound frame of its payload. -/
theorem encodeFrame_eq_makeInFrame {cfg : Config} (h : cfg.inStartByte = cfg.outStartByte) (x y z : Word32) :
    encodeFrame cfg x y z = makeInFrame cfg (outPayload cfg x y z) := by
  rw [encodeFrame_eq_frameOf, makeInFrame_eq_frameOf, h]

theorem validInFrame_encodeFrame {cfg : Config} (h : Loopback cfg) (x y z : Word32) :
    validInFrame cfg (encodeFrame cfg x y z) = true := by
  obtain ⟨hstart, hnIn⟩ := h
  rw [validInFrame_eq_validFrame, hstart, hnIn, ← validOutFrame_eq_validFrame, validOutFrame_encodeFrame]

theorem wordsOf_outPayload {cfg : Config} (h : 12 ≤ cfg.nIn) (x y z : Word32) :
    wordsOf cfg (outPayload cfg x y z) = some { roll := x, pitch := y, yaw := z } := by
  rw [wordsOf, if_pos h, unpack3_outPayload]

/-- Settles O39: an outbound frame is the inbound frame of its payload, or fourteen bytes to skip. -/
theorem loopbackReturnsTheEncodedWords : Obligations.LoopbackReturnsTheEncodedWords := by
  unfold Obligations.LoopbackReturnsTheEncodedWords
  intro s x y z hs hwf f
  refine ⟨fun hloop => ⟨validInFrame_encodeFrame hloop x y z, ?emitted⟩, fun _ hskip => ?ignored⟩
  case emitted =>
    obtain ⟨hstart, hnIn⟩ := hloop
    obtain ⟨t, hfeed, hidle, -, -, herr⟩ :=
      feedAll_makeInFrame hs hwf ((outPayload_length s.cfg x y z).trans hnIn.symm)
    rw [← encodeFrame_eq_makeInFrame hstart, wordsOf_outPayload hnIn.ge, hnIn, ← encodeFrame_payload] at hfeed
    exact ⟨t, hfeed, hidle, herr⟩
  case ignored =>
    rw [feedAll_skip f hs hskip, show f.length = 14 from encodeFrame_length s.cfg x y z]

end Sys2Proof.Machine
end

section
/-! PROOFS. The six rows of `DEC.FEED` (42_frame_decoder.md R141 to R146): where its condition holds each completes with its
effect, and together they are the one function of R156. -/

namespace Sys2Proof.Machine

/-! Each row by itself. -/

theorem exec_feedInstr (r : FeedRow) (c : Byte) (s : State) : exec (feedInstr r c) s = execRow r c s := by
  cases r <;> rfl

/-- Where its condition holds, a row completes with its effect and its result. -/
theorem exec_feedInstr_of_rowCondition {r : FeedRow} {c : Byte} {s : State} (h : rowCondition r s.view c = true) :
    exec (feedInstr r c) s = .next ((rowEffect r c s).1.setResult (.feed (rowEffect r c s).2)) := by
  rw [exec_feedInstr, execRow_eq_next_iff]
  exact ⟨h, rfl⟩

/-- Settles O12: the effect of `FEED.IDLE.START`. -/
theorem feedIdleStartBeginsAFrame : Obligations.FeedIdleStartBeginsAFrame := by
  unfold Obligations.FeedIdleStartBeginsAFrame
  intro c s hs hc
  exact exec_feedInstr_of_rowCondition ((rowCondition_idleStart c s).mpr ⟨hs, hc⟩)

/-- Settles O13: FramingMismatch, which `FEED.IDLE.SKIP` raises, changes nothing. -/
theorem feedIdleSkipWritesNoRegister : Obligations.FeedIdleSkipWritesNoRegister := by
  unfold Obligations.FeedIdleSkipWritesNoRegister
  intro c s hs hc
  exact exec_feedInstr_of_rowCondition ((rowCondition_idleSkip c s).mpr ⟨hs, hc⟩)

/-- Settles O14: the effect of `FEED.PAYLOAD.MORE`. -/
theorem feedPayloadMoreFoldsStoresAdvances : Obligations.FeedPayloadMoreFoldsStoresAdvances := by
  unfold Obligations.FeedPayloadMoreFoldsStoresAdvances
  intro c s hs hidx
  exact exec_feedInstr_of_rowCondition ((rowCondition_payloadMore c s).mpr ⟨hs, hidx⟩)

/-- Settles O15: the effect of `FEED.PAYLOAD.LAST`, whose advanced index is `N_IN`. -/
theorem feedPayloadLastFoldsStoresAndAwaitsCrc : Obligations.FeedPayloadLastFoldsStoresAndAwaitsCrc := by
  unfold Obligations.FeedPayloadLastFoldsStoresAndAwaitsCrc
  intro c s hs hidx
  rw [← hidx]
  exact exec_feedInstr_of_rowCondition ((rowCondition_payloadLast c s).mpr ⟨hs, hidx⟩)

/-- Settles O16: the effect of `FEED.CRC.OK`, with `State.payload` and `wordsOf` written out. -/
theorem feedCrcOkEmitsTheBuffer : Obligations.FeedCrcOkEmitsTheBuffer := by
  unfold Obligations.FeedCrcOkEmitsTheBuffer
  intro c s hs hc
  exact exec_feedInstr_of_rowCondition ((rowCondition_crcOk c s).mpr ⟨hs, hc⟩)

/-- Settles O17: ChecksumMismatch, which `FEED.CRC.BAD` raises, with `satInc` written out. -/
theorem feedCrcBadCountsAndReturnsToIdle : Obligations.FeedCrcBadCountsAndReturnsToIdle := by
  unfold Obligations.FeedCrcBadCountsAndReturnsToIdle
  intro c s hs hc
  exact exec_feedInstr_of_rowCondition ((rowCondition_crcBad c s).mpr ⟨hs, hc⟩)

/-! The rows together (R156). -/

/-- The function of R156 is the effect of the row that applies. -/
theorem feedWhole_eq_rowEffect {r : FeedRow} {c : Byte} {s : State} (h : rowCondition r s.view c = true) :
    feedWhole s c = rowEffect r c s := by
  unfold feedWhole
  cases r with
  | idleStart =>
    obtain ⟨hs, hc⟩ := (rowCondition_idleStart c s).mp h
    simp only [hs, if_pos hc]
    rfl
  | idleSkip =>
    obtain ⟨hs, hc⟩ := (rowCondition_idleSkip c s).mp h
    simp only [hs, if_neg hc]
    rfl
  | payloadMore =>
    obtain ⟨hs, hidx⟩ := (rowCondition_payloadMore c s).mp h
    simp only [hs, if_neg hidx.ne]
    rfl
  | payloadLast =>
    obtain ⟨hs, hidx⟩ := (rowCondition_payloadLast c s).mp h
    simp only [hs, if_pos hidx]
    rfl
  | crcOk =>
    obtain ⟨hs, hc⟩ := (rowCondition_crcOk c s).mp h
    simp only [hs, if_pos hc]
    rfl
  | crcBad =>
    obtain ⟨hs, hc⟩ := (rowCondition_crcBad c s).mp h
    simp only [hs, if_neg hc]
    rfl

/-- A step performs the operation that the head of the script decodes to. -/
theorem step_eq_exec_of_decode {s : State} {r : Request} {rest : List Request} {i : Instr} (hs : s.script = r :: rest)
    (hd : decode s.view r = .ok i) : step s = exec i { s with script := rest } := by
  have hview : State.view { s with script := rest } = s.view := rfl
  simp only [step, State.fetch_cons hs, hview, hd]

/-- Settles O20: the byte decodes to the row that applies, and its effect is the function of R156. -/
theorem feedStepIsTheWholeMachineFunction : Obligations.FeedStepIsTheWholeMachineFunction := by
  unfold Obligations.FeedStepIsTheWholeMachineFunction
  intro s c rest hroom hscript out
  obtain ⟨r, hr⟩ := exists_rowCondition hroom c
  have hr' : rowCondition r (State.view { s with script := rest }) c = true := hr
  have hout : out = rowEffect r c { s with script := rest } := feedWhole_eq_rowEffect hr'
  rw [step_eq_exec_of_decode hscript ((decode_feedRequest_eq_ok_iff s.view c r).mpr hr),
    exec_feedInstr_of_rowCondition hr', hout]
  rfl

end Sys2Proof.Machine
end

section
/-! PROOFS. Streams of bytes from `Idle` (42_frame_decoder.md R148, R149, R153, R155): a frame once started runs to its CRC byte,
and that byte decides between emission and mismatch. -/

namespace Sys2Proof.Machine

/-! Sequences in parts. -/

theorem feedAll_cons_of {c : Byte} {bs : List Byte} {s t u : State} {r : FeedResult} {rs : List FeedResult}
    (hc : feedByte c s = some (t, r)) (hbs : feedAll bs t = some (u, rs)) :
    feedAll (c :: bs) s = some (u, r :: rs) := by
  simp only [feedAll, hc, hbs]

theorem feedAll_append_of {bs cs : List Byte} {s t u : State} {rs rs' : List FeedResult}
    (hbs : feedAll bs s = some (t, rs)) (hcs : feedAll cs t = some (u, rs')) :
    feedAll (bs ++ cs) s = some (u, rs ++ rs') := by
  simp only [feedAll_append, hbs, hcs]

theorem emitted_replicate_nothing_append (n : Nat) (rs : List FeedResult) :
    emitted (List.replicate n .nothing ++ rs) = emitted rs := by
  rw [emitted, List.filterMap_append, List.filterMap_replicate]
  rfl

/-! The byte in the CRC position (R149). -/

/-- In `AwaitingCrc` every byte is consumed and leads to `Idle`. -/
theorem feedByte_of_awaitingCrc {s : State} (hs : s.state = .awaitingCrc) (c : Byte) :
    ∃ t r, feedByte c s = some (t, r) ∧ t.state = .idle := by
  by_cases hc : c = s.crcAcc
  · exact ⟨_, _, feedByte_eq_of_rowCondition ((rowCondition_crcOk c s).mpr ⟨hs, hc⟩), rfl⟩
  · exact ⟨_, _, feedByte_eq_of_rowCondition ((rowCondition_crcBad c s).mpr ⟨hs, hc⟩), rfl⟩

theorem feedByte_start {s : State} (hs : s.state = .idle) :
    feedByte s.cfg.inStartByte s = some ((feedIdleStart s.cfg.inStartByte s).1, .nothing) :=
  feedByte_eq_of_rowCondition ((rowCondition_idleStart _ s).mpr ⟨hs, rfl⟩)

/-- Settles O21: the byte after the CRC byte is found in `Idle`, and the start byte's row stores nothing. -/
theorem everyByteIsUsedOnce : Obligations.EveryByteIsUsedOnce := by
  unfold Obligations.EveryByteIsUsedOnce
  refine ⟨?crcByte, ?startByte⟩
  case crcByte =>
    intro s c hs
    obtain ⟨t, r, hc, ht⟩ := feedByte_of_awaitingCrc hs c
    refine ⟨t, r, hc, ht, fun d hd => ?_⟩
    rw [← (feedByte_sameFrame hc).cfg] at hd
    exact feedAll_cons_of hc (feedAll_skip [d] ht (by simpa using hd))
  case startByte =>
    rintro s _ hs rfl
    exact ⟨_, feedByte_start hs, rfl, rfl⟩

/-- Settles O37: payload bytes are stored up to the `N_IN`-th, and the one after that ends the frame. -/
theorem aFrameOnceStartedTakesItsFixedLength : Obligations.AFrameOnceStartedTakesItsFixedLength := by
  unfold Obligations.AFrameOnceStartedTakesItsFixedLength
  intro s bs hs hwf hfit
  obtain ⟨t, hfeed, hafter⟩ := feedAll_start_payload hs hwf hfit
  have hlen : (feedIdleStart s.cfg.inStartByte s).1.idx + bs.length = bs.length := Nat.zero_add _
  obtain ⟨hstate, hidx, -, hbuf, -, herr, -⟩ := hafter
  rw [hlen] at hstate hidx hbuf
  exact ⟨t, hfeed, hstate, hidx, hbuf, herr, fun hfull => feedByte_of_awaitingCrc (hstate.trans (if_pos hfull))⟩

/-! Valid frames, and others of a frame's length (R155). -/

theorem exists_eq_makeInFrame_of_validInFrame {cfg : Config} {f : List Byte} (h : validInFrame cfg f = true) :
    ∃ p, p.length = cfg.nIn ∧ f = makeInFrame cfg p := by
  have hlen : f.length = cfg.nIn + 2 := (validFrame_iff_fold_eq_zero.mp h).1
  have hp : ((f.drop 1).take cfg.nIn).length = cfg.nIn := by simp [hlen]
  exact ⟨_, hp, validFrame_and_payload_iff.mp ⟨by rwa [hp], by rw [hp]⟩⟩

/-- The payload and the CRC byte of a made inbound frame, by offset. -/
theorem makeInFrame_fields {cfg : Config} {p : List Byte} (hp : p.length = cfg.nIn) :
    ((makeInFrame cfg p).drop 1).take cfg.nIn = p ∧
      (makeInFrame cfg p)[cfg.nIn + 1]? = some (crcOf cfg (cfg.inStartByte :: p)) := by
  simp [makeInFrame_eq_frameOf, frameOf, ← hp]

/-- From `Idle` a valid inbound frame is emitted on its last byte and on no other. -/
theorem feedAll_of_validInFrame {s : State} {f : List Byte} (hs : s.state = .idle) (hwf : Memory.wf s.payloadBuf = true)
    (hvalid : validInFrame s.cfg f = true) :
    ∃ t, feedAll f s =
        some (t, List.replicate (s.cfg.nIn + 1) .nothing ++
          [.emit ((f.drop 1).take s.cfg.nIn) (wordsOf s.cfg ((f.drop 1).take s.cfg.nIn))]) ∧
      t.errCount = s.errCount ∧ t.state = .idle ∧ some t.crcAcc = f[s.cfg.nIn + 1]? ∧ t.idx = s.cfg.nIn := by
  obtain ⟨p, hp, rfl⟩ := exists_eq_makeInFrame_of_validInFrame hvalid
  obtain ⟨t, hfeed, hidle, hcrc, hidx, herr⟩ := feedAll_makeInFrame hs hwf hp
  obtain ⟨hpayload, hlast⟩ := makeInFrame_fields hp
  rw [hpayload, hlast, ← hcrc]
  exact ⟨t, hfeed, herr, hidle, rfl, hidx⟩

/-- From `Idle` a frame's length of bytes that begins with the start byte and is no valid frame is one mismatch, on its last
byte. -/
theorem feedAll_of_not_validInFrame {s : State} {f : List Byte} (hs : s.state = .idle)
    (hwf : Memory.wf s.payloadBuf = true) (hlen : f.length = s.cfg.nIn + 2) (hstart : f[0]? = some s.cfg.inStartByte)
    (hbad : validInFrame s.cfg f ≠ true) :
    ∃ t, feedAll f s = some (t, List.replicate (s.cfg.nIn + 1) .nothing ++ [.mismatch]) ∧
      t.errCount = satInc s.cfg.errW s.errCount ∧ t.state = .idle := by
  obtain ⟨b, c, p, hp, rfl⟩ := exists_cons_append_singleton hlen
  obtain rfl : b = s.cfg.inStartByte := by simpa using hstart
  obtain ⟨u, hfeed, hafter⟩ := feedAll_start_payload hs hwf hp.le
  obtain ⟨hstate, hcrc, -, -, herr, hcfg⟩ := hafter.of_start_full hp
  have hne : c ≠ u.crcAcc := by
    rintro rfl
    apply hbad
    rw [validInFrame_eq_validFrame, ← hp, validFrame_cons_append_iff]
    exact ⟨rfl, hcrc⟩
  have hlast : feedAll [c] u = some (u.raise .checksumMismatch, [.mismatch]) :=
    feedAll_cons_of (feedByte_eq_of_rowCondition ((rowCondition_crcBad c u).mpr ⟨hstate, hne⟩)) (feedAll_nil _)
  refine ⟨u.raise .checksumMismatch, ?_, ?_, rfl⟩
  · rw [← hp]
    exact feedAll_append_of hfeed hlast
  · rw [State.raise_checksumMismatch, State.setState_errCount, State.setErrCount_errCount, hcfg, herr]

/-- Settles O35: a valid frame is emitted, and every other one is a mismatch, which emits nothing. -/
theorem validFrameFromIdleIsEmittedAndNoOther : Obligations.ValidFrameFromIdleIsEmittedAndNoOther := by
  unfold Obligations.ValidFrameFromIdleIsEmittedAndNoOther
  intro s f hs hwf
  refine ⟨feedAll_of_validInFrame hs hwf, fun hlen hstart t rs hfeed => ?_⟩
  by_cases hvalid : validInFrame s.cfg f = true
  · obtain ⟨t', hfeed', -⟩ := feedAll_of_validInFrame hs hwf hvalid
    obtain ⟨rfl, rfl⟩ := Prod.mk.inj (Option.some.inj (hfeed.symm.trans hfeed'))
    rw [emitted_replicate_nothing_append]
    exact ⟨fun _ => hvalid, fun _ => rfl⟩
  · obtain ⟨t', hfeed', -⟩ := feedAll_of_not_validInFrame hs hwf hlen hstart hvalid
    obtain ⟨rfl, rfl⟩ := Prod.mk.inj (Option.some.inj (hfeed.symm.trans hfeed'))
    rw [emitted_replicate_nothing_append]
    exact ⟨fun hemit => absurd hemit.symm (List.cons_ne_nil _ _), fun h => absurd h hvalid⟩

/-- Settles O36: the garbage is skipped, and the frame is fed to the state it was skipped in. -/
theorem garbageBeforeAFrameDoesNoHarm : Obligations.GarbageBeforeAFrameDoesNoHarm := by
  unfold Obligations.GarbageBeforeAFrameDoesNoHarm
  intro s g f hs hwf hskip hvalid
  have hgarbage := feedAll_skip g hs hskip
  obtain ⟨t, hframe, herr, hidle, -⟩ := feedAll_of_validInFrame hs hwf hvalid
  refine ⟨hgarbage, t, ?_, herr, hidle⟩
  rw [feedAll_append_of hgarbage hframe, ← List.append_assoc, List.replicate_append_replicate]

end Sys2Proof.Machine
end

section
/-! PROOFS. Tamper detection in the loopback configuration (42_frame_decoder.md R154): one changed byte changes the fold, so the
frame is no longer valid; a changed start byte leaves too few bytes for another frame. -/

namespace Sys2Proof.Machine

/-- A change of one byte by a nonzero difference changes the fold. -/
theorem fold_modify_xor_ne {d : Byte} (hd : d ≠ 0x00#8) {bs : List Byte} {k : Nat} (hk : k < bs.length) (init : Byte) :
    fold init (bs.modify k (· ^^^ d)) ≠ fold init bs := by
  induction bs generalizing k init with
  | nil => exact absurd hk (Nat.not_lt_zero k)
  | cons b bs ih =>
    cases k with
    | zero =>
      rw [List.modify_zero_cons, fold_cons, fold_cons, Ne, fold_left_inj, update_right_inj]
      simpa using hd
    | succ k => exact ih (Nat.lt_of_succ_lt_succ hk) (update init b)

/-- A valid inbound frame with one byte changed is none. -/
theorem not_validInFrame_modify_xor {cfg : Config} {f : List Byte} {d : Byte} (hd : d ≠ 0x00#8) {k : Nat}
    (hk : k < f.length) (hvalid : validInFrame cfg f = true) : validInFrame cfg (f.modify k (· ^^^ d)) ≠ true := by
  intro hvalid'
  have hzero := (validFrame_iff_fold_eq_zero.mp hvalid).2.2
  have hzero' := (validFrame_iff_fold_eq_zero.mp hvalid').2.2
  exact fold_modify_xor_ne hd hk cfg.crcInit (hzero'.trans hzero.symm)

/-- From `Idle`, fewer bytes than a frame has give no result and count nothing, wherever among them a start byte stands. -/
theorem feedAll_shorter_than_frame {s : State} {bs : List Byte} (hs : s.state = .idle)
    (hwf : Memory.wf s.payloadBuf = true) (hlen : bs.length ≤ s.cfg.nIn + 1) :
    ∃ t, feedAll bs s = some (t, List.replicate bs.length .nothing) ∧ t.errCount = s.errCount := by
  induction bs with
  | nil => exact ⟨s, rfl, rfl⟩
  | cons c bs ih =>
    have hrest : bs.length ≤ s.cfg.nIn := Nat.le_of_succ_le_succ hlen
    by_cases hc : c = s.cfg.inStartByte
    · obtain ⟨t, hfeed, hafter⟩ := feedAll_start_payload hs hwf hrest
      exact ⟨t, hc ▸ hfeed, hafter.errCount⟩
    · obtain ⟨t, hfeed, herr⟩ := ih (by omega)
      exact ⟨t, feedAll_append_of (feedAll_skip [c] hs (by simpa using hc)) hfeed, herr⟩

/-- Settles O38: at offsets 1 to 13 an invalid frame that begins with the start byte; at offset 0 a skipped byte and thirteen
bytes, fewer than a frame has. -/
theorem oneChangedByteOfAFrameIsNeverEmitted : Obligations.OneChangedByteOfAFrameIsNeverEmitted := by
  unfold Obligations.OneChangedByteOfAFrameIsNeverEmitted
  intro s x y z k d hs hwf hloop hd f
  have hstart : s.cfg.inStartByte = s.cfg.outStartByte := hloop.1
  have hnIn : s.cfg.nIn = 12 := hloop.2
  refine ⟨fun hk1 hk13 => ?payloadOrCrc, fun hk0 => ?startByte⟩
  case payloadOrCrc =>
    have hlen : f.length = s.cfg.nIn + 2 := by simp [f, hnIn]
    have hfirst : f[0]? = some s.cfg.inStartByte := by
      rw [List.getElem?_modify_ne _ _ (show k ≠ 0 by omega), encodeFrame_getElem?_start, hstart]
    have hbad : validInFrame s.cfg f ≠ true :=
      not_validInFrame_modify_xor hd (by rw [encodeFrame_length]; omega) (validInFrame_encodeFrame hloop x y z)
    have hfeed := feedAll_of_not_validInFrame hs hwf hlen hfirst hbad
    rwa [hnIn] at hfeed
  case startByte =>
    obtain ⟨rest, hframe, hrest⟩ : ∃ rest, encodeFrame s.cfg x y z = s.cfg.inStartByte :: rest ∧ rest.length = 13 :=
      ⟨_, by rw [encodeFrame_eq_makeInFrame hstart]; rfl, by simp⟩
    have hf : f = [s.cfg.inStartByte ^^^ d] ++ rest := by simp [f, hk0, hframe]
    have hskip := feedAll_skip [s.cfg.inStartByte ^^^ d] hs (by simpa using hd)
    obtain ⟨t, hfeed, herr⟩ := feedAll_shorter_than_frame (bs := rest) hs hwf (by omega)
    rw [hrest] at hfeed
    rw [hf]
    exact ⟨t, _, feedAll_append_of hskip hfeed, rfl, hskip, herr⟩

end Sys2Proof.Machine
end

section
/-! PROOFS. The decoder's outputs (43_decoder_outputs_and_control.md R170, R171, R173): where `unpack3` and `DEC.UNPACK` give
words and which, the words of an emission, and the words of the encoder's frame. -/

namespace Sys2Proof.Machine

/-! `DEC.UNPACK` (R171). -/

/-- Twelve bytes or more have three words. -/
theorem exists_unpack3_eq_some {p : List Byte} (h : 12 ≤ p.length) (o : ByteOrder) : ∃ w, unpack3 o p = some w := by
  match p, h with
  | _ :: _ :: _ :: _ :: _ :: _ :: _ :: _ :: _ :: _ :: _ :: _ :: _, _ => exact ⟨_, rfl⟩

/-- `DEC.UNPACK` goes on exactly on a payload of `N_IN ≥ 12` bytes, with the payload's words and nothing else changed. -/
theorem exec_decUnpack_eq_next_iff {p : List Byte} {s t : State} :
    exec (.decUnpack p) s = .next t ↔
      12 ≤ s.cfg.nIn ∧ p.length = s.cfg.nIn ∧
        ∃ w, unpack3 s.cfg.byteOrder p = some w ∧ t = s.setResult (.words w) := by
  constructor
  · intro h
    simp only [exec, execDecUnpack] at h
    split at h
    · cases h
    · next hnIn =>
      split at h
      · next hlen =>
        split at h
        · next w hw => exact ⟨Nat.le_of_not_lt hnIn, hlen, w, hw, (Host.Outcome.next.inj h).symm⟩
        · cases h
      · cases h
  · rintro ⟨hnIn, hlen, w, hw, rfl⟩
    simp only [exec, execDecUnpack, if_neg (Nat.not_lt_of_le hnIn), if_pos hlen, hw]

/-- Settles O28: the first twelve bytes are the three groups of four, and the bytes after them are ignored. -/
theorem unpackReadsThreeWordsAtFixedOffsets : Obligations.UnpackReadsThreeWordsAtFixedOffsets := by
  unfold Obligations.UnpackReadsThreeWordsAtFixedOffsets
  intro b0 b1 b2 b3 b4 b5 b6 b7 b8 b9 b10 b11 more s hlen
  exact exec_decUnpack_eq_next_iff.mpr ⟨by omega, by simp only [List.length_cons]; omega, _, rfl, rfl⟩

/-! The emission (R170). -/

@[simp] theorem State.payload_length (s : State) : s.payload.length = s.cfg.nIn := Memory.readBytes_length _ _ _

/-- On the matching byte `FEED.CRC.OK` emits the payload with the words of the configuration. -/
theorem exec_feedCrcOk {c : Byte} {s : State} (hs : s.state = .awaitingCrc) (hc : c = s.crcAcc) :
    exec (.feedCrcOk c) s = .next ((s.setState .idle).setResult (.feed (.emit s.payload (wordsOf s.cfg s.payload)))) :=
  exec_feedInstr_of_rowCondition ((rowCondition_crcOk c s).mpr ⟨hs, hc⟩)

/-- Settles O27: the payload has `N_IN` bytes, so with `N_IN ≥ 12` it has words, which `DEC.UNPACK` gives too. -/
theorem emissionCarriesTheUnpackedWords : Obligations.EmissionCarriesTheUnpackedWords := by
  unfold Obligations.EmissionCarriesTheUnpackedWords
  intro c s hs hc
  have hemit := exec_feedCrcOk hs hc
  refine ⟨fun hnIn => ?words, fun hnIn => ?noWords⟩
  case words =>
    obtain ⟨w, hw⟩ := exists_unpack3_eq_some (hnIn.trans_eq s.payload_length.symm) s.cfg.byteOrder
    rw [wordsOf, if_pos hnIn, hw] at hemit
    exact ⟨w, hemit, exec_decUnpack_eq_next_iff.mpr ⟨hnIn, s.payload_length, w, hw, rfl⟩⟩
  case noWords =>
    rwa [wordsOf, if_neg (Nat.not_le_of_lt hnIn)] at hemit

/-! The round trip (R173). -/

theorem stripCrc_encodeFrame (cfg : Config) (x y z : Word32) :
    stripCrc (encodeFrame cfg x y z) = cfg.outStartByte :: outPayload cfg x y z := by
  rw [stripCrc, encodeFrame_eq_append_crc, List.dropLast_concat]

/-- Settles O10: the stripped frame is the start byte and the packed words, which unpack to the words. -/
theorem unpackReturnsWhatWasPacked : Obligations.UnpackReturnsWhatWasPacked := by
  unfold Obligations.UnpackReturnsWhatWasPacked
  intro cfg x y z
  have htwelve : (outPayload cfg x y z).take 12 = outPayload cfg x y z := List.take_of_length_le (by simp)
  refine ⟨unpack3_outPayload cfg x y z, ?_⟩
  rw [stripCrc_encodeFrame, decodePayload, List.drop_one, List.tail_cons, htwelve, unpack3_outPayload]

end Sys2Proof.Machine
end

section
/-! PROOFS. The error counter (43_decoder_outputs_and_control.md R175): the read returns it, and no step lowers it. -/

namespace Sys2Proof.Machine

/-! The saturating count (R25). -/

theorem le_satInc {w : ErrWidth} {n : Nat} (h : countInRange w n = true) : n ≤ satInc w n := by
  cases w with
  | bits k =>
    have hmax : n ≤ 2 ^ k - 1 := of_decide_eq_true h
    exact Nat.le_min.mpr ⟨Nat.le_succ n, hmax⟩
  | inf => exact Nat.le_succ n

theorem countInRange_satInc (w : ErrWidth) (n : Nat) : countInRange w (satInc w n) = true := by
  cases w with
  | bits k => exact decide_eq_true (Nat.min_le_right _ _)
  | inf => rfl

/-! The counter along the rows of `DEC.FEED`. -/

/-- A row keeps the counter, or counts one mismatch. -/
theorem rowEffect_errCount (r : FeedRow) (c : Byte) (s : State) :
    (rowEffect r c s).1.errCount = s.errCount ∨ (rowEffect r c s).1.errCount = satInc s.cfg.errW s.errCount := by
  cases r with
  | crcBad => exact .inr rfl
  | _ => exact .inl rfl

/-- The counter of `t` is in range and not below that of `s`. -/
structure CountGrows (s t : State) : Prop where
  le : s.errCount ≤ t.errCount
  range : countInRange t.cfg.errW t.errCount = true

theorem countGrows_rowEffect {s : State} (hrange : countInRange s.cfg.errW s.errCount = true) (r : FeedRow) (c : Byte) :
    CountGrows s (rowEffect r c s).1 := by
  obtain hsame | hinc := rowEffect_errCount r c s
  · exact ⟨hsame.ge, by rw [rowEffect_cfg, hsame, hrange]⟩
  · exact ⟨by rw [hinc]; exact le_satInc hrange, by rw [rowEffect_cfg, hinc, countInRange_satInc]⟩

/-- A sequence that is fed to its end is its first byte and the rest. -/
theorem feedAll_cons_cases {c : Byte} {bs : List Byte} {s u : State} {rs : List FeedResult}
    (h : feedAll (c :: bs) s = some (u, rs)) :
    ∃ t r rs', feedByte c s = some (t, r) ∧ feedAll bs t = some (u, rs') ∧ rs = r :: rs' := by
  rw [feedAll] at h
  split at h
  · cases h
  · next t r hbyte =>
    split at h
    · cases h
    · next hrest => cases h; exact ⟨t, r, _, hbyte, hrest, rfl⟩

theorem feedAll_errCount_le {bs : List Byte} {s t : State} {rs : List FeedResult}
    (hrange : countInRange s.cfg.errW s.errCount = true) (h : feedAll bs s = some (t, rs)) :
    s.errCount ≤ t.errCount := by
  induction bs generalizing s rs with
  | nil => cases h; exact le_rfl
  | cons c bs ih =>
    obtain ⟨u, res, rs', hbyte, hrest, -⟩ := feedAll_cons_cases h
    obtain ⟨r, -, hrow⟩ := feedByte_cases hbyte
    obtain rfl : u = (rowEffect r c s).1 := congrArg Prod.fst hrow
    have hgrows := countGrows_rowEffect hrange r c
    exact hgrows.le.trans (ih hgrows.range hrest)

/-! The counter along a step. -/

theorem exec_errCount_le {i : Instr} {s t : State} (hrange : countInRange s.cfg.errW s.errCount = true)
    (h : exec i s = .next t) : s.errCount ≤ t.errCount := by
  obtain ⟨-, _, rfl⟩ | ⟨-, rfl⟩ | ⟨r, c, -, -, rfl⟩ | ⟨bs, u, rs, hfeed, rfl⟩ := exec_cases h
  · exact le_rfl
  · exact le_rfl
  · exact (countGrows_rowEffect hrange r c).le
  · have hle : s.errCount ≤ u.errCount := feedAll_errCount_le hrange hfeed
    exact hle

theorem step_errCount_le {s t : State} (hrange : countInRange s.cfg.errW s.errCount = true) (h : step s = .next t) :
    s.errCount ≤ t.errCount := by
  obtain ⟨-, rfl⟩ | ⟨_, rest, _, -, -, hexec⟩ := step_cases h
  · exact le_rfl
  · exact exec_errCount_le (s := { s with script := rest }) hrange hexec

/-- Settles O31: the read by its equation, also after a mismatch, and the counter along a step. -/
theorem errReadReturnsTheCounterAndNothingClearsIt : Obligations.ErrReadReturnsTheCounterAndNothingClearsIt := by
  unfold Obligations.ErrReadReturnsTheCounterAndNothingClearsIt
  refine ⟨exec_errRead, ?afterMismatch, fun _ _ => step_errCount_le⟩
  case afterMismatch =>
    intro c s hs hc
    exact ⟨_, _, exec_feedInstr_of_rowCondition ((rowCondition_crcBad c s).mpr ⟨hs, hc⟩), exec_errRead _, rfl⟩

end Sys2Proof.Machine
end

section
/-! PROOFS. Noninterference of the error counter (43_decoder_outputs_and_control.md R176): states that differ only in
`err_count` and in the result shown make the same steps, and stay such states. -/

namespace Sys2Proof.Machine

/-! States that differ in the counter and the result shown. -/

/-- `s'` is `s` but for `err_count` and the result of the last step. -/
def CountVariant (s s' : State) : Prop := ∃ n res, s' = (s.setErrCount n).setResult res

theorem countVariant (s : State) (n : Nat) (res : Result) : CountVariant s ((s.setErrCount n).setResult res) :=
  ⟨n, res, rfl⟩

theorem CountVariant.setResult {s s' : State} (h : CountVariant s s') (res res' : Result) :
    CountVariant (s.setResult res) (s'.setResult res') := by
  obtain ⟨n, _, rfl⟩ := h
  exact countVariant _ n res'

theorem CountVariant.view_eq {s s' : State} (h : CountVariant s s') : s'.view = s.view := by
  obtain ⟨_, _, rfl⟩ := h
  rfl

/-- A row writes the same to every register but the counter, which it adds to or keeps. -/
theorem CountVariant.rowEffect_fst {s s' : State} (h : CountVariant s s') (r : FeedRow) (c : Byte) :
    CountVariant (rowEffect r c s).1 (rowEffect r c s').1 := by
  obtain ⟨n, res, rfl⟩ := h
  cases r with
  | crcBad => exact countVariant _ (satInc s.cfg.errW n) res
  | _ => exact countVariant _ n res

theorem CountVariant.rowEffect_snd {s s' : State} (h : CountVariant s s') (r : FeedRow) (c : Byte) :
    (rowEffect r c s').2 = (rowEffect r c s).2 := by
  obtain ⟨_, _, rfl⟩ := h
  cases r <;> rfl

theorem CountVariant.exists_feedByte {s s' t : State} {c : Byte} {res : FeedResult} (h : CountVariant s s')
    (hs : feedByte c s = some (t, res)) : ∃ t', feedByte c s' = some (t', res) ∧ CountVariant t t' := by
  obtain ⟨r, hrow, heq⟩ := feedByte_cases hs
  obtain rfl : t = (rowEffect r c s).1 := congrArg Prod.fst heq
  obtain rfl : res = (rowEffect r c s).2 := congrArg Prod.snd heq
  refine ⟨(rowEffect r c s').1, ?_, h.rowEffect_fst r c⟩
  rw [feedByte_eq_of_rowCondition (h.view_eq ▸ hrow), ← h.rowEffect_snd r c]

/-- A sequence of bytes has the same results, emissions among them. -/
theorem CountVariant.exists_feedAll {s s' t : State} {bs : List Byte} {rs : List FeedResult} (h : CountVariant s s')
    (hs : feedAll bs s = some (t, rs)) : ∃ t', feedAll bs s' = some (t', rs) ∧ CountVariant t t' := by
  induction bs generalizing s s' rs with
  | nil => cases hs; exact ⟨s', rfl, h⟩
  | cons c bs ih =>
    obtain ⟨u, res, rs', hbyte, hrest, rfl⟩ := feedAll_cons_cases hs
    obtain ⟨u', hbyte', hu⟩ := h.exists_feedByte hbyte
    obtain ⟨t', hrest', ht⟩ := ih hu hrest
    exact ⟨t', feedAll_cons_of hbyte' hrest', ht⟩

/-! States that also show the same result, but for the number an `ERR.READ` returned. -/

/-- `s'` is `s` but for `err_count` and, where `s` shows the result of an `ERR.READ`, the number in it. -/
structure SameButCount (s s' : State) : Prop where
  variant : CountVariant s s'
  result : s'.result = s.result ∨ ∃ a b, s.result = .count a ∧ s'.result = .count b

theorem sameButCount_setErrCount (s : State) (n : Nat) : SameButCount s (s.setErrCount n) :=
  ⟨countVariant s n s.result, .inl rfl⟩

theorem CountVariant.sameButCount_setResult {s s' : State} (h : CountVariant s s') (res : Result) :
    SameButCount (s.setResult res) (s'.setResult res) := ⟨h.setResult res res, .inl rfl⟩

/-- A row goes on in both states or in neither. -/
theorem CountVariant.exists_execRow {s s' t : State} {r : FeedRow} {c : Byte} (h : CountVariant s s')
    (hs : execRow r c s = .next t) : ∃ t', execRow r c s' = .next t' ∧ SameButCount t t' := by
  obtain ⟨hrow, rfl⟩ := (execRow_eq_next_iff r c s t).mp hs
  refine ⟨_, (execRow_eq_next_iff r c s' _).mpr ⟨h.view_eq ▸ hrow, rfl⟩, ?_⟩
  rw [h.rowEffect_snd]
  exact (h.rowEffect_fst r c).sameButCount_setResult _

theorem execFeedAll_eq_next_iff {bs : List Byte} {s t : State} :
    execFeedAll bs s = .next t ↔ ∃ u rs, feedAll bs s = some (u, rs) ∧ t = u.setResult (.feedAll rs) := by
  unfold execFeedAll
  split
  · next u rs hfeed => simp [hfeed, eq_comm]
  · next hfeed => simp [hfeed]

theorem CountVariant.exists_execFeedAll {s s' t : State} {bs : List Byte} (h : CountVariant s s')
    (hs : execFeedAll bs s = .next t) : ∃ t', execFeedAll bs s' = .next t' ∧ SameButCount t t' := by
  obtain ⟨u, rs, hfeed, rfl⟩ := execFeedAll_eq_next_iff.mp hs
  obtain ⟨u', hfeed', hu⟩ := h.exists_feedAll hfeed
  exact ⟨_, execFeedAll_eq_next_iff.mpr ⟨u', rs, hfeed', rfl⟩, hu.sameButCount_setResult _⟩

/-- No operation reads the counter, but for the counter's next value and the number that `ERR.READ` returns. -/
theorem CountVariant.exists_exec {s s' t : State} {i : Instr} (h : CountVariant s s') (hs : exec i s = .next t) :
    ∃ t', exec i s' = .next t' ∧ SameButCount t t' := by
  obtain ⟨n, res, rfl⟩ := h
  have h := countVariant s n res
  cases i with
  | crcUpdate crc data => cases hs; exact ⟨_, rfl, h.sameButCount_setResult _⟩
  | encEncode x y z => cases hs; exact ⟨_, rfl, h.sameButCount_setResult _⟩
  | feedIdleStart c => exact h.exists_execRow hs
  | feedIdleSkip c => exact h.exists_execRow hs
  | feedPayloadMore c => exact h.exists_execRow hs
  | feedPayloadLast c => exact h.exists_execRow hs
  | feedCrcOk c => exact h.exists_execRow hs
  | feedCrcBad c => exact h.exists_execRow hs
  | decUnpack p =>
    obtain ⟨hnIn, hlen, w, hw, rfl⟩ := exec_decUnpack_eq_next_iff.mp hs
    exact ⟨_, exec_decUnpack_eq_next_iff.mpr ⟨hnIn, hlen, w, hw, rfl⟩, h.sameButCount_setResult _⟩
  | decReset => cases hs; exact ⟨_, rfl, (countVariant (s.setState .idle) n res).sameButCount_setResult .none⟩
  | errRead => cases hs; exact ⟨_, rfl, h.setResult _ _, .inr ⟨s.errCount, n, rfl, rfl⟩⟩
  | frameOut14 x y z crc => exact h.exists_execFeedAll (bs := outFrameBytes s.cfg x y z crc) hs
  | frameIn p crc => exact h.exists_execFeedAll (bs := inFrameBytes s.cfg p crc) hs

/-! Steps and runs. -/

theorem step_eq_hold {s : State} (h : s.script = []) : step s = .next s.hold := by
  simp only [step, State.fetch_nil h]

theorem CountVariant.exists_step {s s' t : State} (h : CountVariant s s') (hs : step s = .next t) :
    ∃ t', step s' = .next t' ∧ SameButCount t t' := by
  obtain ⟨n, res, rfl⟩ := h
  obtain ⟨hscript, rfl⟩ | ⟨r, rest, i, hscript, hdecode, hexec⟩ := step_cases hs
  · exact ⟨_, step_eq_hold hscript, (countVariant s n res).sameButCount_setResult .none⟩
  · obtain ⟨t', hexec', ht⟩ := (countVariant { s with script := rest } n res).exists_exec hexec
    exact ⟨t', (step_eq_exec_of_decode (s := (s.setErrCount n).setResult res) hscript hdecode).trans hexec', ht⟩

theorem SameButCount.exists_run {k : Nat} {s s' t : State} (h : SameButCount s s') (hs : run k s = .next t) :
    ∃ t', run k s' = .next t' ∧ SameButCount t t' := by
  induction k generalizing s s' with
  | zero => cases hs; exact ⟨s', rfl, h⟩
  | succ k ih =>
    rw [run_succ] at hs
    cases hstep : step s with
    | next u =>
      rw [hstep] at hs
      obtain ⟨u', hstep', hu⟩ := h.variant.exists_step hstep
      rw [run_succ, hstep']
      exact ih hu hs
    | fault r => exact r.casesOn
    | refused r => rw [hstep] at hs; cases hs

/-- Settles O33: the two runs stay in states that differ at most in the counter and in an `ERR.READ`'s number. -/
theorem errCountNeverAffectsDecoding : Obligations.ErrCountNeverAffectsDecoding := by
  unfold Obligations.ErrCountNeverAffectsDecoding
  intro k n s t hrun
  obtain ⟨t', hrun', ⟨m, r, rfl⟩, hresult⟩ := (sameButCount_setErrCount s n).exists_run hrun
  exact ⟨m, r, hrun', hresult⟩

end Sys2Proof.Machine
end

section
/-! PROOFS. The supervisor reset (43_decoder_outputs_and_control.md R174, 70_reset_and_hazards.md R221): `DEC.RESET` completes
in every state with `state` written and no other register, and in `Idle` the next byte is a start byte or a skipped one. -/

namespace Sys2Proof.Machine

@[simp] theorem exec_decReset (s : State) : exec .decReset s = .next ((s.setState .idle).setResult .none) := rfl

/-- In `Idle` the start byte alone decides what a fed byte is. -/
theorem decode_feedRequest_of_idle {s : State} (hs : s.state = .idle) (c : Byte) :
    decode s.view (feedRequest c) = .ok (if c = s.cfg.inStartByte then .feedIdleStart c else .feedIdleSkip c) := by
  by_cases hc : c = s.cfg.inStartByte
  · rw [if_pos hc]
    exact (decode_feedRequest_eq_ok_iff s.view c .idleStart).mpr ((rowCondition_idleStart c s).mpr ⟨hs, hc⟩)
  · rw [if_neg hc]
    exact (decode_feedRequest_eq_ok_iff s.view c .idleSkip).mpr ((rowCondition_idleSkip c s).mpr ⟨hs, hc⟩)

/-- Settles O30: the effect of `DEC.RESET` leaves the decoder in `Idle`, where the start byte decides the next operation. -/
theorem supervisorResetWritesOnlyState : Obligations.SupervisorResetWritesOnlyState := by
  unfold Obligations.SupervisorResetWritesOnlyState
  intro s
  exact ⟨_, exec_decReset s, rfl, decode_feedRequest_of_idle (s := (s.setState .idle).setResult .none) rfl⟩

end Sys2Proof.Machine
end

section
/-! PROOFS. The invariant of the reachable states (10_state.md R33, R25, 20_memory.md R50): it holds at power-on, every row of
`DEC.FEED` keeps it, and so does every step. -/

namespace Sys2Proof.Machine

/-! The invariant speaks of the registers alone. -/

theorem Consistent.setResult {s : State} (h : Consistent s) (res : Result) : Consistent (s.setResult res) :=
  ⟨h.idx_le, h.idx_payload, h.idx_crc, h.crc_fold, h.count_range, h.buf_wf, h.buf_within⟩

theorem Consistent.with_script {s : State} (h : Consistent s) (rs : List Request) : Consistent { s with script := rs } :=
  ⟨h.idx_le, h.idx_payload, h.idx_crc, h.crc_fold, h.count_range, h.buf_wf, h.buf_within⟩

/-! Each kind of register write. -/

/-- In `Idle` the invariant asks nothing of `crc_acc`. -/
theorem Consistent.setState_idle {s : State} (h : Consistent s) : Consistent (s.setState .idle) where
  idx_le := h.idx_le
  idx_payload hst := nomatch hst
  idx_crc hst := nomatch hst
  crc_fold hst := absurd rfl hst
  count_range := h.count_range
  buf_wf := h.buf_wf
  buf_within := h.buf_within

theorem Consistent.raise {s : State} (h : Consistent s) (e : ErrorCondition) : Consistent (s.raise e) := by
  cases e with
  | framingMismatch => exact h
  | checksumMismatch =>
    have hcount : Consistent (s.setErrCount (satInc s.cfg.errW s.errCount)) :=
      ⟨h.idx_le, h.idx_payload, h.idx_crc, h.crc_fold, countInRange_satInc _ _, h.buf_wf, h.buf_within⟩
    exact hcount.setState_idle

theorem Consistent.feedIdleStart {s : State} (h : Consistent s) :
    Consistent (feedIdleStart s.cfg.inStartByte s).1 where
  idx_le := Nat.zero_le _
  idx_payload _ := s.cfg.nIn_pos
  idx_crc hst := nomatch hst
  crc_fold _ := rfl
  count_range := h.count_range
  buf_wf := h.buf_wf
  buf_within := h.buf_within

/-- The cells below the written one keep their bytes, so the fold goes on with the byte stored. -/
theorem Consistent.crc_fold_store {s : State} (h : Consistent s) (hs : s.state = .awaitingPayload) (c : Byte) :
    update s.crcAcc c =
      fold s.cfg.crcInit
        (s.cfg.inStartByte :: Memory.readBytes (Memory.write s.payloadBuf s.idx c) 0 (s.idx + 1)) := by
  rw [Memory.readBytes_succ_last, Memory.readBytes_write_above _ _ le_rfl, Nat.zero_add,
    Memory.read_write_same _ _ h.buf_wf, ← List.cons_append, fold_snoc, ← h.crc_fold (by simp [hs])]

theorem Consistent.feedPayloadMore {s : State} (h : Consistent s) (hs : s.state = .awaitingPayload)
    (hidx : s.idx + 1 < s.cfg.nIn) (c : Byte) : Consistent (feedPayloadMore c s).1 where
  idx_le := hidx.le
  idx_payload _ := hidx
  idx_crc hst := nomatch hst
  crc_fold _ := h.crc_fold_store hs c
  count_range := h.count_range
  buf_wf := Memory.wf_write _ _ h.buf_wf
  buf_within := Memory.within_write _ h.buf_within (h.idx_payload hs)

theorem Consistent.feedPayloadLast {s : State} (h : Consistent s) (hs : s.state = .awaitingPayload)
    (hidx : s.idx + 1 = s.cfg.nIn) (c : Byte) : Consistent (feedPayloadLast c s).1 where
  idx_le := hidx.le
  idx_payload hst := nomatch hst
  idx_crc _ := hidx
  crc_fold _ := h.crc_fold_store hs c
  count_range := h.count_range
  buf_wf := Memory.wf_write _ _ h.buf_wf
  buf_within := Memory.within_write _ h.buf_within (h.idx_payload hs)

/-! Rows, sequences of bytes, operations and steps. -/

theorem Consistent.rowEffect {s : State} (h : Consistent s) {r : FeedRow} {c : Byte}
    (hr : rowCondition r s.view c = true) : Consistent (rowEffect r c s).1 := by
  cases r with
  | idleStart =>
    obtain ⟨-, rfl⟩ := (rowCondition_idleStart c s).mp hr
    exact h.feedIdleStart
  | idleSkip => exact h.raise .framingMismatch
  | payloadMore =>
    obtain ⟨hs, hidx⟩ := (rowCondition_payloadMore c s).mp hr
    exact h.feedPayloadMore hs hidx c
  | payloadLast =>
    obtain ⟨hs, hidx⟩ := (rowCondition_payloadLast c s).mp hr
    exact h.feedPayloadLast hs hidx c
  | crcOk => exact h.setState_idle
  | crcBad => exact h.raise .checksumMismatch

theorem Consistent.feedAll {bs : List Byte} {s t : State} {rs : List FeedResult} (h : Consistent s)
    (hfeed : feedAll bs s = some (t, rs)) : Consistent t := by
  induction bs generalizing s rs with
  | nil => cases hfeed; exact h
  | cons c bs ih =>
    obtain ⟨u, res, rs', hbyte, hrest, -⟩ := feedAll_cons_cases hfeed
    obtain ⟨r, hr, hrow⟩ := feedByte_cases hbyte
    obtain rfl : u = (Machine.rowEffect r c s).1 := congrArg Prod.fst hrow
    exact ih (h.rowEffect hr) hrest

theorem Consistent.exec {i : Instr} {s t : State} (h : Consistent s) (hexec : exec i s = .next t) : Consistent t := by
  obtain ⟨-, res, rfl⟩ | ⟨-, rfl⟩ | ⟨r, c, -, hr, rfl⟩ | ⟨bs, u, rs, hfeed, rfl⟩ := exec_cases hexec
  · exact h.setResult res
  · exact h.setState_idle.setResult .none
  · exact (h.rowEffect hr).setResult _
  · exact (h.feedAll hfeed).setResult _

theorem Consistent.step {s t : State} (h : Consistent s) (hstep : step s = .next t) : Consistent t := by
  obtain ⟨-, rfl⟩ | ⟨_, rest, _, -, -, hexec⟩ := step_cases hstep
  · exact h.setResult .none
  · exact (h.with_script rest).exec hexec

/-- Settles O45: the operation that the step performs keeps the invariant, row by row. -/
theorem everyStepKeepsTheInvariant : Obligations.EveryStepKeepsTheInvariant := by
  unfold Obligations.EveryStepKeepsTheInvariant
  intro s t h hstep
  exact h.step hstep

/-! Power-on (R34). -/

theorem countInRange_zero (w : ErrWidth) : countInRange w 0 = true := by
  cases w with
  | bits k => exact decide_eq_true (Nat.zero_le (2 ^ k - 1))
  | inf => rfl

theorem consistent_powerOn {cfg : Config} {buf : Memory} (hwf : Memory.wf buf = true)
    (hwithin : Memory.within buf cfg.nIn = true) : Consistent (State.powerOn cfg buf) where
  idx_le := Nat.zero_le _
  idx_payload hst := nomatch hst
  idx_crc hst := nomatch hst
  crc_fold hst := absurd rfl hst
  count_range := countInRange_zero cfg.errW
  buf_wf := hwf
  buf_within := hwithin

/-- Settles O46: the model's reset state is the power-on state of TC1 with an empty buffer. -/
theorem powerOnMeetsTheInvariant : Obligations.PowerOnMeetsTheInvariant := by
  unfold Obligations.PowerOnMeetsTheInvariant
  exact ⟨fun _ _ => consistent_powerOn, consistent_powerOn (cfg := Config.tc1) (buf := []) rfl rfl⟩

end Sys2Proof.Machine
end

section
/-! PROOFS. Runs: what every step keeps every run keeps, and no run writes the configuration (20_memory.md R64). -/

namespace Sys2Proof.Machine

theorem run_succ_eq_next_iff {k : Nat} {s t : State} :
    run (k + 1) s = .next t ↔ ∃ u, step s = .next u ∧ run k u = .next t := by
  rw [run_succ]
  cases step s with
  | next u => simp
  | fault r => exact r.casesOn
  | refused r => simp

/-- A run that goes on goes on in both its parts. -/
theorem run_add_eq_next_iff {j k : Nat} {s t : State} :
    run (j + k) s = .next t ↔ ∃ u, run j s = .next u ∧ run k u = .next t := by
  induction j generalizing s with
  | zero => simp
  | succ j ih =>
    rw [show j + 1 + k = j + k + 1 by omega]
    simp only [run_succ_eq_next_iff, ih]
    exact ⟨fun ⟨v, hs, u, hj, hk⟩ => ⟨u, ⟨v, hs, hj⟩, hk⟩, fun ⟨u, ⟨v, hs, hj⟩, hk⟩ => ⟨v, hs, u, hj, hk⟩⟩

/-- What every step keeps, every run keeps. -/
theorem run_induction {P : State → Prop} (hstep : ∀ s t, P s → step s = .next t → P t) {k : Nat} {s t : State} (h : P s)
    (hrun : run k s = .next t) : P t := by
  induction k generalizing s with
  | zero => cases hrun; exact h
  | succ k ih =>
    obtain ⟨u, hs, hk⟩ := run_succ_eq_next_iff.mp hrun
    exact ih (hstep s u h hs) hk

theorem exec_cfg {i : Instr} {s t : State} (h : exec i s = .next t) : t.cfg = s.cfg := by
  obtain ⟨-, _, rfl⟩ | ⟨-, rfl⟩ | ⟨r, c, -, -, rfl⟩ | ⟨bs, u, rs, hfeed, rfl⟩ := exec_cases h
  · rfl
  · rfl
  · exact rowEffect_cfg r c s
  · exact (feedAll_frame hfeed).1

theorem step_cfg {s t : State} (h : step s = .next t) : t.cfg = s.cfg := by
  obtain ⟨-, rfl⟩ | ⟨_, rest, _, -, -, hexec⟩ := step_cases h
  · rfl
  · exact exec_cfg (s := { s with script := rest }) hexec

/-- Settles O48: no operation writes the configuration, so no step and no run does. -/
theorem configurationNeverChanges : Obligations.ConfigurationNeverChanges := by
  unfold Obligations.ConfigurationNeverChanges
  intro k s t hrun
  exact run_induction (P := fun u => u.cfg = s.cfg) (fun _ _ hu hstep => (step_cfg hstep).trans hu) rfl hrun

end Sys2Proof.Machine
end

section
/-! PROOFS. Decoding and encoding (30_encoding.md R76 to R78): a request decodes to an operation exactly where it is the
operation's encoding and the operation is well-formed and selected. -/

namespace Sys2Proof.Machine

/-! What each port's decoder answers. -/

theorem decodeCrc_eq_ok_iff {bs : List Byte} {i : Instr} :
    decodeCrc bs = .ok i ↔ ∃ crc data, bs = [crc, data] ∧ i = .crcUpdate crc data := by
  unfold decodeCrc
  split
  · simp [eq_comm]
  · next hne => simpa using fun crc data hbs => absurd hbs (hne crc data)

theorem decodeEnc_eq_ok_iff {bs : List Byte} {i : Instr} :
    decodeEnc bs = .ok i ↔
      ∃ x y z, bs = numericBytes x ++ numericBytes y ++ numericBytes z ∧ i = .encEncode x y z := by
  constructor
  · intro h
    unfold decodeEnc at h
    split at h
    · cases h
      refine ⟨_, _, _, ?_, rfl⟩
      simp only [numericBytes, numericWord, pack32_unpack32]
      rfl
    · cases h
  · rintro ⟨x, y, z, rfl, rfl⟩
    obtain ⟨_, _, _, _, hx, hx'⟩ := exists_pack32_eq_and_unpack32_eq .be x
    obtain ⟨_, _, _, _, hy, hy'⟩ := exists_pack32_eq_and_unpack32_eq .be y
    obtain ⟨_, _, _, _, hz, hz'⟩ := exists_pack32_eq_and_unpack32_eq .be z
    rw [numericBytes, numericBytes, numericBytes, hx, hy, hz, ← hx', ← hy', ← hz']
    rfl

theorem decodeFeed_eq_ok_iff {v : FeedView} {bs : List Byte} {i : Instr} :
    decodeFeed v bs = .ok i ↔ ∃ r c, bs = [c] ∧ rowCondition r v c = true ∧ i = feedInstr r c := by
  constructor
  · intro h
    unfold decodeFeed at h
    split at h
    · next c =>
      split at h
      · next r hr => cases h; exact ⟨r, c, rfl, (selectRow_eq_some_iff v c r).mp hr, rfl⟩
      · cases h
    · cases h
  · rintro ⟨r, c, rfl, hr, rfl⟩
    exact (decode_feedRequest_eq_ok_iff v c r).mpr hr

theorem decodeUnpack_eq_ok_iff {cfg : Config} {bs : List Byte} {i : Instr} :
    decodeUnpack cfg bs = .ok i ↔ 12 ≤ cfg.nIn ∧ bs.length = cfg.nIn ∧ i = .decUnpack bs := by
  unfold decodeUnpack
  by_cases hnIn : cfg.nIn < 12
  · simp [hnIn]
  · by_cases hlen : bs.length = cfg.nIn
    · simp [hlen, Nat.le_of_not_lt hnIn, hnIn, eq_comm]
    · simp [hlen, hnIn]

theorem decodeStrobe_eq_ok_iff {bs : List Byte} {i j : Instr} : decodeStrobe j bs = .ok i ↔ bs = [] ∧ i = j := by
  cases bs <;> simp [decodeStrobe, eq_comm]

theorem decodeOutFrame_eq_ok_iff {cfg : Config} {bs : List Byte} {i : Instr} :
    decodeOutFrame cfg bs = .ok i ↔
      ∃ x y z crc, bs = outFrameBytes cfg x y z crc ∧ i = .frameOut14 x y z crc := by
  constructor
  · intro h
    unfold decodeOutFrame at h
    split at h
    · split at h
      · next hst =>
        cases h
        exact ⟨_, _, _, _, by rw [outFrameBytes, pack32_unpack32, pack32_unpack32, pack32_unpack32, hst]; rfl, rfl⟩
      · cases h
    · cases h
  · rintro ⟨x, y, z, crc, rfl, rfl⟩
    obtain ⟨_, _, _, _, hx, hx'⟩ := exists_pack32_eq_and_unpack32_eq cfg.byteOrder x
    obtain ⟨_, _, _, _, hy, hy'⟩ := exists_pack32_eq_and_unpack32_eq cfg.byteOrder y
    obtain ⟨_, _, _, _, hz, hz'⟩ := exists_pack32_eq_and_unpack32_eq cfg.byteOrder z
    rw [outFrameBytes, hx, hy, hz, ← hx', ← hy', ← hz']
    exact if_pos rfl

theorem decodeInFrame_eq_ok_iff {cfg : Config} {bs : List Byte} {i : Instr} :
    decodeInFrame cfg bs = .ok i ↔
      ∃ p crc, p.length = cfg.nIn ∧ bs = inFrameBytes cfg p crc ∧ i = .frameIn p crc := by
  constructor
  · intro h
    by_cases hlen : bs.length = cfg.nIn + 2
    · obtain ⟨st, crc, p, hp, rfl⟩ := exists_cons_append_singleton hlen
      by_cases hst : st = cfg.inStartByte
      · exact ⟨p, crc, hp, by rw [hst]; rfl, by simpa [decodeInFrame, hp, hst, eq_comm] using h⟩
      · simp [decodeInFrame, hp, hst] at h
    · cases bs with
      | nil => cases h
      | cons st rest =>
        have hrest : rest.length ≠ cfg.nIn + 1 := by simpa using hlen
        simp [decodeInFrame, hrest] at h
  · rintro ⟨p, crc, hp, rfl, rfl⟩
    simp [decodeInFrame, inFrameBytes, hp]

/-! The rows of `DEC.FEED` as operations. -/

theorem encode_feedInstr (cfg : Config) (r : FeedRow) (c : Byte) : encode cfg (feedInstr r c) = feedRequest c := by
  cases r <;> rfl

theorem selected_feedInstr (v : FeedView) (r : FeedRow) (c : Byte) : Selected v (feedInstr r c) = rowCondition r v c := by
  cases r <;> rfl

/-- A row that applies is an operation the configuration has. -/
theorem wellFormed_feedInstr {v : FeedView} {r : FeedRow} {c : Byte} (h : rowCondition r v c = true) :
    WellFormed v.cfg (feedInstr r c) = true := by
  cases r with
  | idleStart => exact (Bool.and_eq_true_iff.mp h).2
  | idleSkip => exact (Bool.and_eq_true_iff.mp h).2
  | payloadMore =>
    have hidx : v.idx + 1 < v.cfg.nIn := of_decide_eq_true (Bool.and_eq_true_iff.mp h).2
    exact decide_eq_true (show 1 < v.cfg.nIn by omega)
  | payloadLast => rfl
  | crcOk => rfl
  | crcBad => rfl

/-! Both directions. -/

theorem decode_encode {v : FeedView} {i : Instr} (hwf : WellFormed v.cfg i = true) (hsel : Selected v i = true) :
    decode v (encode v.cfg i) = .ok i := by
  have row (r : FeedRow) (c : Byte) (hr : Selected v (feedInstr r c) = true) :
      decode v (encode v.cfg (feedInstr r c)) = .ok (feedInstr r c) := by
    rw [encode_feedInstr, decode_feedRequest_eq_ok_iff, ← selected_feedInstr, hr]
  cases i with
  | crcUpdate crc data => rfl
  | encEncode x y z => exact decodeEnc_eq_ok_iff.mpr ⟨x, y, z, rfl, rfl⟩
  | feedIdleStart c => exact row .idleStart c hsel
  | feedIdleSkip c => exact row .idleSkip c hsel
  | feedPayloadMore c => exact row .payloadMore c hsel
  | feedPayloadLast c => exact row .payloadLast c hsel
  | feedCrcOk c => exact row .crcOk c hsel
  | feedCrcBad c => exact row .crcBad c hsel
  | decUnpack p =>
    obtain ⟨hnIn, hlen⟩ : 12 ≤ v.cfg.nIn ∧ p.length = v.cfg.nIn := by simpa [WellFormed] using hwf
    exact decodeUnpack_eq_ok_iff.mpr ⟨hnIn, hlen, rfl⟩
  | decReset => rfl
  | errRead => rfl
  | frameOut14 x y z crc => exact decodeOutFrame_eq_ok_iff.mpr ⟨x, y, z, crc, rfl, rfl⟩
  | frameIn p crc => exact decodeInFrame_eq_ok_iff.mpr ⟨p, crc, eq_of_beq hwf, rfl, rfl⟩

/-- Settles O52: the port's decoder answers the operation whose layout the request has. -/
theorem decodeReturnsTheEncodedOperation : Obligations.DecodeReturnsTheEncodedOperation := by
  unfold Obligations.DecodeReturnsTheEncodedOperation
  intro v i
  exact decode_encode

theorem encode_of_decode {v : FeedView} {r : Request} {i : Instr} (h : decode v r = .ok i) :
    encode v.cfg i = r ∧ WellFormed v.cfg i = true ∧ Selected v i = true := by
  obtain ⟨port, bs⟩ := r
  cases port with
  | crc =>
    obtain ⟨crc, data, rfl, rfl⟩ := decodeCrc_eq_ok_iff.mp h
    exact ⟨rfl, rfl, rfl⟩
  | enc =>
    obtain ⟨x, y, z, rfl, rfl⟩ := decodeEnc_eq_ok_iff.mp h
    exact ⟨rfl, rfl, rfl⟩
  | feed =>
    obtain ⟨r, c, rfl, hr, rfl⟩ := decodeFeed_eq_ok_iff.mp h
    exact ⟨encode_feedInstr v.cfg r c, wellFormed_feedInstr hr, by rw [selected_feedInstr, hr]⟩
  | unpack =>
    obtain ⟨hnIn, hlen, rfl⟩ := decodeUnpack_eq_ok_iff.mp h
    exact ⟨rfl, by simp [WellFormed, hnIn, hlen], rfl⟩
  | reset =>
    obtain ⟨rfl, rfl⟩ := decodeStrobe_eq_ok_iff.mp h
    exact ⟨rfl, rfl, rfl⟩
  | errRead =>
    obtain ⟨rfl, rfl⟩ := decodeStrobe_eq_ok_iff.mp h
    exact ⟨rfl, rfl, rfl⟩
  | outFrame =>
    obtain ⟨x, y, z, crc, rfl, rfl⟩ := decodeOutFrame_eq_ok_iff.mp h
    exact ⟨rfl, rfl, rfl⟩
  | inFrame =>
    obtain ⟨p, crc, hp, rfl, rfl⟩ := decodeInFrame_eq_ok_iff.mp h
    exact ⟨rfl, beq_iff_eq.mpr hp, rfl⟩

/-- Settles O53: port by port, the request has the layout of the operation it decodes to. -/
theorem everyDecodedRequestIsTheEncodingOfItsOperation : Obligations.EveryDecodedRequestIsTheEncodingOfItsOperation := by
  unfold Obligations.EveryDecodedRequestIsTheEncodingOfItsOperation
  intro v r i
  exact encode_of_decode

/-- Settles O54: each vector is the layout of its operation, and `A5` is TC1's start byte. -/
theorem writtenOperandVectorsDecode : Obligations.WrittenOperandVectorsDecode := by
  unfold Obligations.WrittenOperandVectorsDecode
  decide

end Sys2Proof.Machine
end

section
/-! PROOFS. The laws of `update` and of the fold (40_crc8_engine.md R107), from the linearity of the step. -/

namespace Sys2Proof.Machine

/-- The step is linear in its two operands together. -/
theorem update_xor_xor (a b c d : Byte) : update (a ^^^ b) (c ^^^ d) = update a c ^^^ update b d := by
  have hxor : (a ^^^ b) ^^^ (c ^^^ d) = (a ^^^ c) ^^^ (b ^^^ d) := by ac_rfl
  rw [update, update, update, hxor, crcShifts_xor]

/-- A difference in the data shows in the result as its table entry. -/
theorem update_xor_right (crc data d : Byte) : update crc (data ^^^ d) = update crc data ^^^ update 0x00#8 d := by
  rw [← update_xor_xor, BitVec.xor_zero]

/-- The step does not see a difference that both operands have. -/
theorem update_xor_same (crc data d : Byte) : update (crc ^^^ d) (data ^^^ d) = update crc data := by
  rw [update_xor_xor, update_eq_zero_iff.mpr rfl, BitVec.xor_zero]

/-- Settles O3: the step is linear and injective in each operand, and there are only 256 bytes. -/
theorem crcUpdateIsLinearBijectiveSelfCancelling : Obligations.CrcUpdateIsLinearBijectiveSelfCancelling := by
  unfold Obligations.CrcUpdateIsLinearBijectiveSelfCancelling
  refine ⟨update_zero_xor, update_eq_zero_iff.mpr rfl, ?crc, ?data, fun c => update_eq_zero_iff.mpr rfl⟩
  case crc => exact fun data => Finite.injective_iff_bijective.mp fun _ _ => update_left_inj.mp
  case data => exact fun crc => Finite.injective_iff_bijective.mp fun _ _ => update_right_inj.mp

/-- What is XORed into the initial value is folded on through zero bytes. -/
theorem fold_xor_left (a b : Byte) (bs : List Byte) :
    fold (a ^^^ b) bs = fold a bs ^^^ fold b (List.replicate bs.length 0x00#8) := by
  induction bs generalizing a b with
  | nil => rfl
  | cons c bs ih =>
    have hupdate : update (a ^^^ b) c = update a c ^^^ update b 0x00#8 := by rw [← update_xor_xor, BitVec.xor_zero]
    rw [fold_cons, hupdate, ih, List.length_cons, List.replicate_succ, fold_cons, fold_cons]

theorem fold_zero_replicate_zero (n : Nat) : fold 0x00#8 (List.replicate n 0x00#8) = 0x00#8 := by
  induction n with
  | zero => rfl
  | succ n ih => rw [List.replicate_succ, fold_cons, update_eq_zero_iff.mpr rfl, ih]

/-- Settles O4: the residue by the self-cancellation of the step, the initial value by linearity. -/
theorem crcFoldResidueAndInitialValue : Obligations.CrcFoldResidueAndInitialValue := by
  unfold Obligations.CrcFoldResidueAndInitialValue
  refine ⟨fun init bs => fold_snoc_eq_zero_iff.mpr rfl, fun init bs => ?_, fold_zero_replicate_zero⟩
  rw [← fold_xor_left, BitVec.zero_xor]

/-- Settles O5: bytes fold injectively, before and after the changed one; the second change takes back what the first one
makes of the accumulator. -/
theorem crcFoldDetectsOneByteAndMissesMatchedTwo : Obligations.CrcFoldDetectsOneByteAndMissesMatchedTwo := by
  unfold Obligations.CrcFoldDetectsOneByteAndMissesMatchedTwo
  refine ⟨fun init before after b b' hne heq => ?oneByte, fun init before after b0 b1 d => ?twoBytes⟩
  case oneByte =>
    rw [fold_append, fold_append, fold_cons, fold_cons, fold_left_inj, update_right_inj] at heq
    exact hne heq
  case twoBytes =>
    simp only [fold_append, fold_cons, update_xor_right _ b0, update_xor_same]

end Sys2Proof.Machine
end

section
/-! PROOFS. What each operation changes and what it leaves (30_encoding.md R76, 60_exceptions.md R190 to R192), by its kind: pure,
a reset, one row of `DEC.FEED`, or a whole frame. -/

namespace Sys2Proof.Machine

/-! The kinds of operations. -/

/-- The two wire-format rows (R71, R72). -/
def IsFrame (i : Instr) : Prop := (∃ x y z crc, i = .frameOut14 x y z crc) ∨ (∃ p crc, i = .frameIn p crc)

theorem instr_kinds (i : Instr) : isPure i = true ∨ i = .decReset ∨ (∃ r c, i = feedInstr r c) ∨ IsFrame i := by
  cases i with
  | feedIdleStart c => exact .inr (.inr (.inl ⟨.idleStart, c, rfl⟩))
  | feedIdleSkip c => exact .inr (.inr (.inl ⟨.idleSkip, c, rfl⟩))
  | feedPayloadMore c => exact .inr (.inr (.inl ⟨.payloadMore, c, rfl⟩))
  | feedPayloadLast c => exact .inr (.inr (.inl ⟨.payloadLast, c, rfl⟩))
  | feedCrcOk c => exact .inr (.inr (.inl ⟨.crcOk, c, rfl⟩))
  | feedCrcBad c => exact .inr (.inr (.inl ⟨.crcBad, c, rfl⟩))
  | decReset => exact .inr (.inl rfl)
  | frameOut14 x y z crc => exact .inr (.inr (.inr (.inl ⟨x, y, z, crc, rfl⟩)))
  | frameIn p crc => exact .inr (.inr (.inr (.inr ⟨p, crc, rfl⟩)))
  | _ => exact .inl rfl

theorem exec_pure {i : Instr} {s t : State} (hpure : isPure i = true) (h : exec i s = .next t) :
    ∃ res, t = s.setResult res := by
  cases i with
  | crcUpdate crc data => cases h; exact ⟨_, rfl⟩
  | encEncode x y z => cases h; exact ⟨_, rfl⟩
  | decUnpack p =>
    obtain ⟨-, -, w, -, rfl⟩ := exec_decUnpack_eq_next_iff.mp h
    exact ⟨_, rfl⟩
  | errRead => cases h; exact ⟨_, rfl⟩
  | _ => cases hpure

theorem exec_feedInstr_eq_next {r : FeedRow} {c : Byte} {s t : State} (h : exec (feedInstr r c) s = .next t) :
    rowCondition r s.view c = true ∧ t = (rowEffect r c s).1.setResult (.feed (rowEffect r c s).2) :=
  (execRow_eq_next_iff r c s t).mp (exec_feedInstr r c s ▸ h)

/-- A frame row feeds a sequence of bytes. -/
theorem exists_exec_eq_execFeedAll {i : Instr} (h : IsFrame i) (s : State) : ∃ bs, exec i s = execFeedAll bs s := by
  obtain ⟨x, y, z, crc, rfl⟩ | ⟨p, crc, rfl⟩ := h
  · exact ⟨outFrameBytes s.cfg x y z crc, rfl⟩
  · exact ⟨inFrameBytes s.cfg p crc, rfl⟩

/-! Refusals. -/

/-- Settles O18: no other row's effect is tried. -/
theorem feedRowIsRefusedWhereItIsNotTheRow : Obligations.FeedRowIsRefusedWhereItIsNotTheRow := by
  unfold Obligations.FeedRowIsRefusedWhereItIsNotTheRow
  intro r c s h
  rw [exec_feedInstr, execRow, if_neg (by simp [h])]

/-- Settles O29: both the operation and its decoder look at `N_IN` first. -/
theorem unpackIsAbsentBelowTwelveBytes : Obligations.UnpackIsAbsentBelowTwelveBytes := by
  unfold Obligations.UnpackIsAbsentBelowTwelveBytes
  intro p s hnIn
  exact ⟨if_pos hnIn, if_pos hnIn⟩

/-- Settles O56: the three refusals are the three checks, in the order of R10. -/
theorem configurationIsRefusedOrBuiltAsAsked : Obligations.ConfigurationIsRefusedOrBuiltAsAsked := by
  unfold Obligations.ConfigurationIsRefusedOrBuiltAsAsked
  intro raw
  refine ⟨fun hbad => ?refused, fun hpoly hiter hnIn => ?built⟩
  case refused =>
    by_cases hpoly : raw.crcPoly = crcPoly
    · by_cases hiter : raw.crcIter = crcIter
      · have hzero : raw.nIn = 0 := (hbad.resolve_left (not_not_intro hpoly)).resolve_left (not_not_intro hiter)
        exact ⟨.zeroPayload, by simp [configure, hpoly, hiter, hzero]⟩
      · exact ⟨.iterations, by simp [configure, hpoly, hiter]⟩
    · exact ⟨.polynomial, by simp [configure, hpoly]⟩
  case built =>
    have hpoly' : raw.crcPoly = crcPoly := hpoly
    have hiter' : raw.crcIter = crcIter := hiter
    exact ⟨_, by rw [configure, if_neg (not_not_intro hpoly'), if_neg (not_not_intro hiter'), dif_pos hnIn],
      rfl, rfl, rfl, rfl, rfl, rfl⟩

/-! Frames. -/

/-- Settles O23: a pure operation sets its result. -/
theorem pureOperationsChangeOnlyTheirResult : Obligations.PureOperationsChangeOnlyTheirResult := by
  unfold Obligations.PureOperationsChangeOnlyTheirResult
  intro i s t hpure hexec
  obtain ⟨res, rfl⟩ := exec_pure hpure hexec
  rfl

theorem conditionOf_eq_some {i : Instr} {e : ErrorCondition} (h : conditionOf i = some e) :
    (∃ c, i = feedInstr .idleSkip c ∧ e = .framingMismatch) ∨ (∃ c, i = feedInstr .crcBad c ∧ e = .checksumMismatch) := by
  cases i with
  | feedIdleSkip c => cases h; exact .inl ⟨c, rfl, rfl⟩
  | feedCrcBad c => cases h; exact .inr ⟨c, rfl, rfl⟩
  | _ => cases h

/-- Settles O22: the two rows that are occurrences of a condition raise it, and return. -/
theorem errorConditionsChangeOnlyWhatTheyRaise : Obligations.ErrorConditionsChangeOnlyWhatTheyRaise := by
  unfold Obligations.ErrorConditionsChangeOnlyWhatTheyRaise
  intro i e s t hcond hexec
  obtain ⟨c, rfl, rfl⟩ | ⟨c, rfl, rfl⟩ := conditionOf_eq_some hcond
  · obtain ⟨-, rfl⟩ := exec_feedInstr_eq_next hexec
    exact ⟨rfl, fun _ => rfl, nofun⟩
  · obtain ⟨-, rfl⟩ := exec_feedInstr_eq_next hexec
    exact ⟨rfl, nofun, fun _ => rfl⟩

/-- Settles O24: both payload rows write the byte at the index held before, by the read-after-write law. -/
theorem payloadRowsStoreOneByteAtTheIndex : Obligations.PayloadRowsStoreOneByteAtTheIndex := by
  unfold Obligations.PayloadRowsStoreOneByteAtTheIndex
  intro c s t hwf hexec
  have hstore : t.payloadBuf = Memory.write s.payloadBuf s.idx c ∧ t.errCount = s.errCount ∧ t.cfg = s.cfg ∧
      t.script = s.script := by
    obtain h | h := hexec
    · obtain ⟨-, rfl⟩ := exec_feedInstr_eq_next (r := .payloadMore) h
      exact ⟨rfl, rfl, rfl, rfl⟩
    · obtain ⟨-, rfl⟩ := exec_feedInstr_eq_next (r := .payloadLast) h
      exact ⟨rfl, rfl, rfl, rfl⟩
  obtain ⟨hbuf, hrest⟩ := hstore
  rw [hbuf]
  exact ⟨Memory.read_write_same _ _ hwf, fun a ha => Memory.read_write_of_ne _ _ ha, Memory.wf_write _ _ hwf, hrest⟩

/-- Settles O25: the effect of each row named, and of `DEC.RESET`, does not write what is asked for. -/
theorem nonStoringOperationsKeepTheBuffer : Obligations.NonStoringOperationsKeepTheBuffer := by
  unfold Obligations.NonStoringOperationsKeepTheBuffer
  intro c s t
  have row {r : FeedRow} (h : exec (feedInstr r c) s = .next t) :
      t = (rowEffect r c s).1.setResult (.feed (rowEffect r c s).2) := (exec_feedInstr_eq_next h).2
  refine ⟨?buffer, ?accIdx, ?count⟩
  case buffer =>
    rintro (h | h | h | h | h)
    · rw [row (r := .idleStart) h]; exact ⟨fun _ => rfl, rfl, rfl⟩
    · rw [row (r := .idleSkip) h]; exact ⟨fun _ => rfl, rfl, rfl⟩
    · rw [row (r := .crcOk) h]; exact ⟨fun _ => rfl, rfl, rfl⟩
    · rw [row (r := .crcBad) h]; exact ⟨fun _ => rfl, rfl, rfl⟩
    · cases h; exact ⟨fun _ => rfl, rfl, rfl⟩
  case accIdx =>
    rintro (h | h | h | h)
    · rw [row (r := .idleSkip) h]; exact ⟨rfl, rfl⟩
    · rw [row (r := .crcOk) h]; exact ⟨rfl, rfl⟩
    · rw [row (r := .crcBad) h]; exact ⟨rfl, rfl⟩
    · cases h; exact ⟨rfl, rfl⟩
  case count =>
    rintro (h | h | h | h)
    · rw [row (r := .idleStart) h]; rfl
    · rw [row (r := .idleSkip) h]; rfl
    · rw [row (r := .crcOk) h]; rfl
    · cases h; rfl

/-- Settles O26: what no sequence of `DEC.FEED` writes. -/
theorem frameRowsWriteOnlyThePayloadBuffer : Obligations.FrameRowsWriteOnlyThePayloadBuffer := by
  unfold Obligations.FrameRowsWriteOnlyThePayloadBuffer
  intro i s t hframe hexec
  obtain ⟨bs, hbs⟩ := exists_exec_eq_execFeedAll hframe s
  obtain ⟨u, rs, hfeed, rfl⟩ := execFeedAll_eq_next_iff.mp (hbs ▸ hexec)
  obtain ⟨hcfg, hscript, -, habove, -⟩ := feedAll_frame hfeed
  exact ⟨habove, hcfg, hscript⟩

/-! The counter (R25). -/

theorem satInc_inf (n : Nat) : satInc .inf n = n + 1 := rfl

theorem satInc_of_lt {w n : Nat} (h : n < 2 ^ w - 1) : satInc (.bits w) n = n + 1 := Nat.min_eq_left h

theorem satInc_bound (w : Nat) : satInc (.bits w) (2 ^ w - 1) = 2 ^ w - 1 := Nat.min_eq_right (Nat.le_succ _)

theorem rowEffect_errCount_of_ne {r : FeedRow} (h : r ≠ .crcBad) (c : Byte) (s : State) :
    (rowEffect r c s).1.errCount = s.errCount := by
  cases r with
  | crcBad => exact absurd rfl h
  | _ => rfl

/-- Settles O32: `FEED.CRC.BAD` is the one row that writes the counter, and what it writes is the saturating count. -/
theorem onlyAMismatchMovesTheCounter : Obligations.OnlyAMismatchMovesTheCounter := by
  unfold Obligations.OnlyAMismatchMovesTheCounter
  refine ⟨fun i s t hexec hbad hout hin => ?others, fun c s t hexec => ?mismatch⟩
  case others =>
    obtain hpure | rfl | ⟨r, c, rfl⟩ | ⟨x, y, z, crc, rfl⟩ | ⟨p, crc, rfl⟩ := instr_kinds i
    · obtain ⟨res, rfl⟩ := exec_pure hpure hexec
      rfl
    · cases hexec; rfl
    · obtain ⟨-, rfl⟩ := exec_feedInstr_eq_next hexec
      have hr : r ≠ .crcBad := fun hr => hbad c (congrArg (feedInstr · c) hr)
      exact rowEffect_errCount_of_ne hr c s
    · exact absurd rfl (hout x y z crc)
    · exact absurd rfl (hin p crc)
  case mismatch =>
    obtain ⟨-, rfl⟩ := exec_feedInstr_eq_next (r := .crcBad) hexec
    have hcount : (feedCrcBad c s).1.errCount = satInc s.cfg.errW s.errCount := rfl
    refine ⟨fun hw => ?_, fun w hw hlt => ?_, fun w hw hmax => ?_⟩
    · exact hcount.trans (by rw [hw, satInc_inf])
    · exact hcount.trans (by rw [hw, satInc_of_lt hlt])
    · exact hcount.trans (by rw [hw, hmax, satInc_bound])

end Sys2Proof.Machine
end

section
/-! PROOFS. Whole frames fed to the decoder (30_encoding.md R82, R83; notes/assumptions/4.md): the frame rows, an inbound frame
with a right or wrong CRC byte, and the frame made of a payload. -/

namespace Sys2Proof.Machine

/-- In a state with room for a payload byte a sequence of bytes completes, with one result per byte. -/
theorem execFeedAll_completes (bs : List Byte) {s : State} (h : CanTakeByte s) :
    ∃ t rs, feedAll bs s = some (t, rs) ∧ execFeedAll bs s = .next (t.setResult (.feedAll rs)) ∧
      rs.length = bs.length := by
  obtain ⟨t, rs, hfeed, -⟩ := feedAll_of_canTakeByte bs h
  exact ⟨t, rs, hfeed, execFeedAll_eq_next_iff.mpr ⟨t, rs, hfeed, rfl⟩, feedAll_length hfeed⟩

/-- Settles O41: the frame rows are `execFeedAll` of their bytes, of which every one finds a row that applies. -/
theorem frameRowsFeedTheirBytes : Obligations.FrameRowsFeedTheirBytes := by
  unfold Obligations.FrameRowsFeedTheirBytes
  refine ⟨fun x y z crc s hroom => ?outFrame, fun p crc s hroom => ?inFrame⟩
  case outFrame =>
    obtain ⟨t, rs, hfeed, hexec, hlen⟩ := execFeedAll_completes (outFrameBytes s.cfg x y z crc) hroom
    have hbytes : [s.cfg.outStartByte] ++ pack32 s.cfg.byteOrder x ++ pack32 s.cfg.byteOrder y ++
        pack32 s.cfg.byteOrder z ++ [crc] = outFrameBytes s.cfg x y z crc := by simp [outFrameBytes]
    exact ⟨t, rs, hbytes ▸ hfeed, hexec, by rw [hlen]; simp [outFrameBytes, Laws.pack32_length]⟩
  case inFrame =>
    obtain ⟨t, rs, hfeed, hexec, hlen⟩ := execFeedAll_completes (inFrameBytes s.cfg p crc) hroom
    exact ⟨t, rs, hfeed, hexec, by rw [hlen]; simp [inFrameBytes]⟩

/-- In `AwaitingCrc` the byte is compared with `crc_acc`: the payload is emitted or one mismatch is counted (R145, R146). -/
theorem feedByte_crc {s : State} (hs : s.state = .awaitingCrc) (c : Byte) :
    feedByte c s =
      some ((s.setErrCount (if c = s.crcAcc then s.errCount else satInc s.cfg.errW s.errCount)).setState .idle,
        if c = s.crcAcc then .emit s.payload (wordsOf s.cfg s.payload) else .mismatch) := by
  by_cases hc : c = s.crcAcc
  · rw [feedByte_eq_of_rowCondition ((rowCondition_crcOk c s).mpr ⟨hs, hc⟩), if_pos hc, if_pos hc]
    rfl
  · rw [feedByte_eq_of_rowCondition ((rowCondition_crcBad c s).mpr ⟨hs, hc⟩), if_neg hc, if_neg hc]
    rfl

/-- Settles O42: start byte and payload lead to `AwaitingCrc`, where the CRC byte decides. -/
theorem inboundFrameFromIdleIsEmittedOrCounted : Obligations.InboundFrameFromIdleIsEmittedOrCounted := by
  unfold Obligations.InboundFrameFromIdleIsEmittedOrCounted
  intro p crc s hs hwf hlen good
  obtain ⟨u, hfeed, hafter⟩ := feedAll_start_payload hs hwf hlen.le
  obtain ⟨hstate, hcrc, hidx, hpayload, herr, hcfg⟩ := hafter.of_start_full hlen
  have hgood : u.crcAcc = good := hcrc
  have hall := feedAll_append_of hfeed (feedAll_cons_of (feedByte_crc hstate crc) (feedAll_nil _))
  rw [hgood, hpayload, hcfg, herr, hlen] at hall
  have hbuf : Memory.readBytes u.payloadBuf 0 s.cfg.nIn = p := by rw [← hcfg]; exact hpayload
  exact ⟨_, execFeedAll_eq_next_iff.mpr ⟨_, _, hall, rfl⟩, rfl, hgood, hidx, hbuf, rfl, rfl⟩

/-- Settles O58: the made frame is the one valid frame of its payload, and is emitted on its last byte. -/
theorem madeInboundFrameIsTheOneValidAndIsEmitted : Obligations.MadeInboundFrameIsTheOneValidAndIsEmitted := by
  unfold Obligations.MadeInboundFrameIsTheOneValidAndIsEmitted
  intro s p hlen f
  have hunique (g : List Byte) : validInFrame s.cfg g = true ∧ (g.drop 1).take s.cfg.nIn = p ↔ g = f := by
    rw [← hlen, validInFrame_eq_validFrame, ← hlen]
    exact validFrame_and_payload_iff
  refine ⟨rfl, ((hunique f).mpr rfl).1, fun g hvalid hpayload => (hunique g).mp ⟨hvalid, hpayload⟩, fun hs hwf => ?_⟩
  obtain ⟨t, hfeed, hidle, -, -, herr⟩ := feedAll_makeInFrame hs hwf hlen
  exact ⟨t, _, hfeed, by rw [emitted_replicate_nothing_append]; rfl, hidle, herr⟩

end Sys2Proof.Machine
end

section
/-! PROOFS. Steps and runs over the script (20_memory.md R60, R82; 60_exceptions.md R197, R207): a byte at the head of the script
is one `DEC.FEED`, a sequence of bytes their run, and a pure operation between two of them does not show. -/

namespace Sys2Proof.Machine

/-! One step. -/

theorem step_eq_refused_of_decode {s : State} {r : Request} {rest : List Request} {why : Reject}
    (hs : s.script = r :: rest) (hd : decode s.view r = .error why) : step s = .refused (.rejected why) := by
  have hview : State.view { s with script := rest } = s.view := rfl
  simp only [step, State.fetch_cons hs, hview, hd]

/-- Settles O44: the three things a step can find in the script. -/
theorem stepRunsTheDecodedOperation : Obligations.StepRunsTheDecodedOperation := by
  unfold Obligations.StepRunsTheDecodedOperation
  exact ⟨fun _ _ _ _ => step_eq_exec_of_decode, fun _ _ _ _ => step_eq_refused_of_decode, fun _ => step_eq_hold⟩

/-- A pure operation that the configuration has completes. -/
theorem exec_pure_completes {i : Instr} {s : State} (hpure : isPure i = true) (hwf : WellFormed s.cfg i = true) :
    Completes (exec i s) := by
  cases i with
  | crcUpdate crc data => exact ⟨_, rfl⟩
  | encEncode x y z => exact ⟨_, rfl⟩
  | decUnpack p =>
    obtain ⟨hnIn, hlen⟩ : 12 ≤ s.cfg.nIn ∧ p.length = s.cfg.nIn := by simpa [WellFormed] using hwf
    obtain ⟨w, hw⟩ := exists_unpack3_eq_some (hlen ▸ hnIn) s.cfg.byteOrder
    exact ⟨_, exec_decUnpack_eq_next_iff.mpr ⟨hnIn, hlen, w, hw, rfl⟩⟩
  | errRead => exact ⟨_, rfl⟩
  | _ => cases hpure

/-- Every operation that the configuration has and the port would perform completes (R207). -/
theorem exec_completes {i : Instr} {s : State} (hroom : CanTakeByte s) (hwf : WellFormed s.cfg i = true)
    (hsel : Selected s.view i = true) : Completes (exec i s) := by
  obtain hpure | rfl | ⟨r, c, rfl⟩ | hframe := instr_kinds i
  · exact exec_pure_completes hpure hwf
  · exact ⟨_, exec_decReset s⟩
  · exact ⟨_, exec_feedInstr_of_rowCondition (selected_feedInstr s.view r c ▸ hsel)⟩
  · obtain ⟨bs, hbs⟩ := exists_exec_eq_execFeedAll hframe s
    obtain ⟨t, rs, -, hexec, -⟩ := execFeedAll_completes bs hroom
    exact ⟨_, hbs.trans hexec⟩

theorem step_encode_completes {s : State} {i : Instr} {rest : List Request} (hroom : CanTakeByte s)
    (hwf : WellFormed s.cfg i = true) (hsel : Selected s.view i = true) (hscript : s.script = encode s.cfg i :: rest) :
    Completes (step s) := by
  rw [step_eq_exec_of_decode hscript (decode_encode hwf hsel)]
  exact exec_completes hroom hwf hsel

/-- Settles O49: a byte is the encoding of the row that applies to it. -/
theorem everyRequestedOperationCompletes : Obligations.EveryRequestedOperationCompletes := by
  unfold Obligations.EveryRequestedOperationCompletes
  refine ⟨fun s c rest hroom hscript => ?byte, fun s i rest hroom hwf hsel => step_encode_completes hroom hwf hsel⟩
  case byte =>
    obtain ⟨r, hr⟩ := exists_rowCondition hroom c
    rw [← encode_feedInstr s.cfg r c] at hscript
    exact step_encode_completes hroom (wellFormed_feedInstr hr) (by rw [selected_feedInstr, hr]) hscript

/-! Bytes and pure operations in the script. -/

/-- The registers of `s` with `rs` still to perform and `res` shown. -/
def State.showing (s : State) (rs : List Request) (res : Result) : State := { s with script := rs, result := res }

/-- A step performs what the head of the script decodes to in the registers found. -/
theorem step_showing_cons {s : State} {q : Request} {i : Instr} (h : decode s.view q = .ok i) (rest : List Request)
    (res : Result) : step (s.showing (q :: rest) res) = exec i (s.showing rest res) :=
  step_eq_exec_of_decode (s := s.showing (q :: rest) res) rfl h

theorem rowEffect_showing (r : FeedRow) (c : Byte) (s : State) (rs : List Request) (res : Result) :
    rowEffect r c (s.showing rs res) = ((rowEffect r c s).1.showing rs res, (rowEffect r c s).2) := by
  cases r <;> rfl

/-- A byte at the head of the script is one `DEC.FEED`. -/
theorem step_feedRequest_eq_next_iff {c : Byte} {s t : State} {rest : List Request} {res : Result} :
    step (s.showing (feedRequest c :: rest) res) = .next t ↔
      ∃ u r, feedByte c s = some (u, r) ∧ t = u.showing rest (.feed r) := by
  cases hrow : selectRow s.view c with
  | none =>
    have hstep : step (s.showing (feedRequest c :: rest) res) = .refused (.rejected .noRow) :=
      step_eq_refused_of_decode rfl (decode_feedRequest_of_selectRow_eq_none hrow)
    simp [hstep, feedByte, hrow]
  | some r =>
    have hr : rowCondition r s.view c = true := (selectRow_eq_some_iff s.view c r).mp hrow
    have hstep : step (s.showing (feedRequest c :: rest) res) =
        .next ((rowEffect r c s).1.showing rest (.feed (rowEffect r c s).2)) := by
      rw [step_showing_cons (decode_feedRequest_of_selectRow_eq_some hrow),
        exec_feedInstr_of_rowCondition (s := s.showing rest res) hr, rowEffect_showing]
      rfl
    rw [hstep, feedByte_eq_of_rowCondition hr]
    simp [Prod.ext_iff, eq_comm]

/-- The result shown after bytes with the results `rs`, where `res` was shown before. -/
def lastShown (res : Result) (rs : List FeedResult) : Result :=
  match rs.getLast? with
  | some r => .feed r
  | none => res

@[simp] theorem lastShown_nil (res : Result) : lastShown res [] = res := rfl

@[simp] theorem lastShown_cons (res : Result) (r : FeedResult) (rs : List FeedResult) :
    lastShown res (r :: rs) = lastShown (.feed r) rs := by
  cases h : rs.getLast? <;> simp [lastShown, List.getLast?_cons, h]

/-- Of bytes, only the result of the last is shown. -/
theorem lastShown_eq_of_ne_nil {rs : List FeedResult} (h : rs ≠ []) (res res' : Result) :
    lastShown res rs = lastShown res' rs := by
  cases rs with
  | nil => exact absurd rfl h
  | cons r rs => rw [lastShown_cons, lastShown_cons]

/-- A sequence of bytes at the head of the script is run as `feed_all`. -/
theorem run_feedRequests_eq_next_iff {bs : List Byte} {s t : State} {rest : List Request} {res : Result} :
    run bs.length (s.showing (bs.map feedRequest ++ rest) res) = .next t ↔
      ∃ u rs, feedAll bs s = some (u, rs) ∧ t = u.showing rest (lastShown res rs) := by
  induction bs generalizing s res with
  | nil => simp [eq_comm]
  | cons c bs ih =>
    rw [List.map_cons, List.cons_append, List.length_cons, run_succ_eq_next_iff]
    simp only [step_feedRequest_eq_next_iff]
    constructor
    · rintro ⟨_, ⟨u, r, hbyte, rfl⟩, hrun⟩
      obtain ⟨v, rs, hfeed, rfl⟩ := ih.mp hrun
      exact ⟨v, r :: rs, feedAll_cons_of hbyte hfeed, by rw [lastShown_cons]⟩
    · rintro ⟨v, _, hfeed, rfl⟩
      obtain ⟨u, r, rs, hbyte, hrest, rfl⟩ := feedAll_cons_cases hfeed
      exact ⟨_, ⟨u, r, hbyte, rfl⟩, ih.mpr ⟨v, rs, hrest, by rw [lastShown_cons]⟩⟩

/-- Settles O43: the run shows the result of the last byte, or, of no byte, what was shown before. -/
theorem feedingASequenceIsTheRunOfItsSteps : Obligations.FeedingASequenceIsTheRunOfItsSteps := by
  unfold Obligations.FeedingASequenceIsTheRunOfItsSteps
  intro bs rest s t rs hfeed
  have hrun := run_feedRequests_eq_next_iff.mpr ⟨t, rs, hfeed, (rfl : _ = t.showing rest (lastShown s.result rs))⟩
  obtain ⟨-, hscript, hresult, -⟩ := feedAll_frame hfeed
  refine hrun.trans (congrArg _ ?_)
  rw [← show t.script = rest from hscript, ← show t.result = s.result from hresult, lastShown]
  cases rs.getLast? <;> rfl

theorem selected_of_isPure {i : Instr} (h : isPure i = true) (v : FeedView) : Selected v i = true := by
  cases i with
  | crcUpdate crc data => rfl
  | encEncode x y z => rfl
  | decUnpack p => rfl
  | errRead => rfl
  | _ => cases h

/-- Well-formed pure operations at the head of the script leave nothing but a result. -/
theorem run_pure {is : List Instr} {s : State} {rest : List Request} {res : Result}
    (h : ∀ i ∈ is, isPure i = true ∧ WellFormed s.cfg i = true) :
    ∃ res', run is.length (s.showing (is.map (encode s.cfg) ++ rest) res) = .next (s.showing rest res') := by
  induction is generalizing res with
  | nil => exact ⟨res, rfl⟩
  | cons i is ih =>
    obtain ⟨hpure, hwf⟩ := h i (by simp)
    have hdecode := decode_encode hwf (selected_of_isPure hpure s.view)
    obtain ⟨u, hexec⟩ := exec_pure_completes (s := s.showing (is.map (encode s.cfg) ++ rest) res) hpure hwf
    obtain ⟨r, rfl⟩ := exec_pure hpure hexec
    obtain ⟨res', hrun⟩ := ih (res := r) fun j hj => h j (by simp [hj])
    refine ⟨res', run_succ_eq_next_iff.mpr ⟨_, ?_, hrun⟩⟩
    exact (step_showing_cons hdecode _ res).trans hexec

/-- Settles O50: the pure operations change only the result shown, which the second part replaces. -/
theorem pureOperationsBetweenTwoPartsOfAFrameDoNotShow : Obligations.PureOperationsBetweenTwoPartsOfAFrameDoNotShow := by
  unfold Obligations.PureOperationsBetweenTwoPartsOfAFrameDoNotShow
  intro s t as bs between rest hbetween hrun
  obtain ⟨u, hfirst, hsecond⟩ := run_add_eq_next_iff.mp hrun
  obtain ⟨v, rs, has, rfl⟩ := (run_feedRequests_eq_next_iff (res := s.result)).mp hfirst
  obtain ⟨w, rs', hbs, rfl⟩ := run_feedRequests_eq_next_iff.mp hsecond
  have hcfg : v.cfg = s.cfg := (feedAll_frame has).1
  rw [← hcfg] at hbetween
  obtain ⟨res, hpure⟩ := run_pure (rest := bs.map feedRequest ++ rest) (res := lastShown s.result rs) hbetween
  rw [hcfg] at hpure
  refine ⟨lastShown res rs', ?run, fun hne => ?shown⟩
  case run =>
    refine run_add_eq_next_iff.mpr ⟨_, run_add_eq_next_iff.mpr ⟨_, ?_, hpure⟩, ?_⟩
    · exact run_feedRequests_eq_next_iff.mpr ⟨v, rs, has, rfl⟩
    · exact run_feedRequests_eq_next_iff.mpr ⟨w, rs', hbs, rfl⟩
  case shown =>
    have hrs : rs' ≠ [] := by
      rw [← List.length_pos_iff, feedAll_length hbs]
      exact List.length_pos_iff.mpr hne
    exact lastShown_eq_of_ne_nil hrs _ _

/-- Settles O51: three steps, each performing the head of the script. -/
theorem requestsTogetherAreReadFeedReset : Obligations.RequestsTogetherAreReadFeedReset := by
  unfold Obligations.RequestsTogetherAreReadFeedReset
  intro s c hroom hscript both
  obtain ⟨r, -, hbyte⟩ := feedByte_of_canTakeByte hroom c
  have hissued : s.issue both.ordered =
      s.showing [encode s.cfg .errRead, feedRequest c, encode s.cfg .decReset] s.result := by
    simp [State.issue, hscript, both, Together.ordered, State.showing, encode]
  have hread : run 1 (s.issue both.ordered) =
      .next (s.showing [feedRequest c, encode s.cfg .decReset] (.count s.errCount)) := by
    rw [hissued]
    exact run_succ_eq_next_iff.mpr ⟨_, step_showing_cons (i := .errRead) rfl _ _, rfl⟩
  have hfeed : run 2 (s.issue both.ordered) =
      .next ((rowEffect r c s).1.showing [encode s.cfg .decReset] (.feed (rowEffect r c s).2)) := by
    rw [run_add 1 hread]
    exact run_succ_eq_next_iff.mpr ⟨_, step_feedRequest_eq_next_iff.mpr ⟨_, _, hbyte, rfl⟩, rfl⟩
  have hreset : run 3 (s.issue both.ordered) =
      .next (((rowEffect r c s).1.setState .idle).showing [] .none) := by
    rw [run_add 1 hfeed]
    exact run_succ_eq_next_iff.mpr ⟨_, step_showing_cons (i := .decReset) rfl _ _, rfl⟩
  exact ⟨_, _, hbyte, hread, hfeed, hreset⟩

end Sys2Proof.Machine
end

section
/-! PROOFS. Bit vectors of operands and results (30_encoding.md R71, R77): the vector of a byte sequence by its last byte, its
bytes by offset, and the fields of the two result vectors. -/

namespace Sys2Proof.Machine

/-! The vector of a byte sequence. -/

theorem vectorOfBytes_snoc (bs : List Byte) (b : Byte) :
    vectorOfBytes (bs ++ [b]) = vectorOfBytes bs * 256 + b.toNat := by
  rw [vectorOfBytes, List.foldl_append]
  rfl

/-- The last byte of the vector is its low eight bits. -/
theorem bytesOfVector_succ (n w : Nat) :
    bytesOfVector (n + 1) w = bytesOfVector n (w >>> 8) ++ [BitVec.ofNat 8 w] := by
  induction n with
  | zero => rfl
  | succ n ih =>
    have hshift : w >>> (8 * (n + 1)) = w >>> 8 >>> (8 * n) := by rw [← Nat.shiftRight_add]; congr 1; omega
    rw [bytesOfVector, ih, hshift]
    rfl

/-- A byte sequence is given back by its vector. -/
theorem bytesOfVector_vectorOfBytes (bs : List Byte) : bytesOfVector bs.length (vectorOfBytes bs) = bs := by
  induction bs using List.reverseRecOn with
  | nil => rfl
  | append_singleton bs b ih =>
    have hlt : b.toNat < 256 := b.isLt
    have hhigh : vectorOfBytes (bs ++ [b]) >>> 8 = vectorOfBytes bs := by
      rw [vectorOfBytes_snoc, Nat.shiftRight_eq_div_pow]; omega
    have hlow : BitVec.ofNat 8 (vectorOfBytes (bs ++ [b])) = b := by
      apply BitVec.eq_of_toNat_eq
      rw [vectorOfBytes_snoc, BitVec.toNat_ofNat]; omega
    rw [List.length_append, List.length_singleton, bytesOfVector_succ, hhigh, hlow, ih]

theorem bytesOfVector_getElem? {n i : Nat} (h : i < n) (w : Nat) :
    (bytesOfVector n w)[i]? = some (BitVec.ofNat 8 (w >>> (8 * (n - 1 - i)))) := by
  induction n generalizing i with
  | zero => exact absurd h (Nat.not_lt_zero i)
  | succ n ih =>
    cases i with
    | zero => rfl
    | succ i =>
      rw [bytesOfVector, List.getElem?_cons_succ, ih (Nat.lt_of_succ_lt_succ h),
        show n + 1 - 1 - (i + 1) = n - 1 - i by omega]

/-- The byte at offset `i`, counted from the left. -/
theorem getElem?_eq_vectorOfBytes {bs : List Byte} {i : Nat} (h : i < bs.length) :
    bs[i]? = some (BitVec.ofNat 8 (vectorOfBytes bs >>> (8 * (bs.length - 1 - i)))) := by
  rw [← bytesOfVector_getElem? h, bytesOfVector_vectorOfBytes]

/-- Settles O55: of fourteen bytes, offset `i` has `13 - i` bytes to its right. -/
theorem operandVectorHasOffsetZeroLeftmost : Obligations.OperandVectorHasOffsetZeroLeftmost := by
  unfold Obligations.OperandVectorHasOffsetZeroLeftmost
  refine ⟨bytesOfVector_vectorOfBytes, fun f i hlen hi => ?_⟩
  rw [getElem?_eq_vectorOfBytes (hi.trans_eq hlen.symm), hlen, show 104 - 8 * i = 8 * (14 - 1 - i) by omega]

/-! The result vectors. -/

theorem wordsVector_fields (w : Words) :
    (wordsVector w).extractLsb' 64 32 = w.roll ∧ (wordsVector w).extractLsb' 32 32 = w.pitch ∧
      (wordsVector w).extractLsb' 0 32 = w.yaw := by
  unfold wordsVector
  refine ⟨?roll, ?pitch, BitVec.extractLsb'_append_eq_right⟩
  case roll =>
    rw [BitVec.extractLsb'_append_eq_of_le (by decide), BitVec.extractLsb'_append_eq_of_le (by decide)]
    exact BitVec.extractLsb'_eq_self
  case pitch =>
    rw [BitVec.extractLsb'_append_eq_of_le (by decide)]
    exact BitVec.extractLsb'_append_eq_right

/-- The words of a 96-bit result. -/
def wordsOfVector (v : BitVec 96) : Words :=
  { roll := v.extractLsb' 64 32, pitch := v.extractLsb' 32 32, yaw := v.extractLsb' 0 32 }

theorem wordsVector_wordsOfVector (v : BitVec 96) : wordsVector (wordsOfVector v) = v := by
  unfold wordsVector wordsOfVector
  rw [BitVec.extractLsb'_append_extractLsb'_eq_extractLsb' (show 64 = 32 + 32 from rfl),
    BitVec.extractLsb'_append_extractLsb'_eq_extractLsb' (show 32 = 0 + 32 from rfl)]
  exact BitVec.extractLsb'_eq_self

theorem wordsOfVector_wordsVector (w : Words) : wordsOfVector (wordsVector w) = w := by
  obtain ⟨hroll, hpitch, hyaw⟩ := wordsVector_fields w
  rw [wordsOfVector, hroll, hpitch, hyaw]

/-- Fourteen bytes fill the 112 bits of `F`, each at the place of its offset. -/
theorem getElem?_eq_frameVector {f : List Byte} {i : Nat} (hlen : f.length = 14) (hi : i < 14) :
    f[i]? = some ((frameVector f).extractLsb' (104 - 8 * i) 8) := by
  rw [getElem?_eq_vectorOfBytes (hi.trans_eq hlen.symm), hlen, show 8 * (14 - 1 - i) = 104 - 8 * i by omega]
  refine congrArg some (BitVec.eq_of_getLsbD_eq fun j hj => ?_)
  have hfit : 104 - 8 * i + j < 112 := by omega
  simp only [frameVector, BitVec.getLsbD_extractLsb', BitVec.getLsbD_ofNat, Nat.testBit_shiftRight, hj, hfit, decide_true,
    Bool.true_and]

/-- A frame of fourteen bytes, read off its vector. -/
theorem eq_bytes_of_frameVector {f : List Byte} (hlen : f.length = 14) :
    f = (List.range 14).map fun i => (frameVector f).extractLsb' (104 - 8 * i) 8 := by
  refine List.ext_getElem? fun i => ?_
  by_cases hi : i < 14
  · simp [getElem?_eq_frameVector hlen hi, hi]
  · simp [hlen, hi]

/-- Settles O57: the frame's bytes are those of its vector, and its fields are known by offset. -/
theorem resultVectorsHaveTheirFieldsInPlace : Obligations.ResultVectorsHaveTheirFieldsInPlace := by
  unfold Obligations.ResultVectorsHaveTheirFieldsInPlace
  refine ⟨wordsVector_fields, fun v => ?unique, ?frame⟩
  case unique =>
    exact ⟨wordsOfVector v, wordsVector_wordsOfVector v, fun w hw => by rw [← hw, wordsOfVector_wordsVector]⟩
  case frame =>
    intro cfg x y z v
    have at_offset {i : Nat} (hi : i < 14) : (encodeFrame cfg x y z)[i]? = some (v.extractLsb' (104 - 8 * i) 8) :=
      getElem?_eq_frameVector (encodeFrame_length cfg x y z) hi
    have hbytes : encodeFrame cfg x y z = (List.range 14).map fun i => v.extractLsb' (104 - 8 * i) 8 :=
      eq_bytes_of_frameVector (encodeFrame_length cfg x y z)
    obtain ⟨hx, hy, hz⟩ := encodeFrame_fields cfg x y z
    have hstart := (at_offset (i := 0) (by decide)).symm.trans (encodeFrame_getElem?_start cfg x y z)
    have hcrc := (at_offset (i := 13) (by decide)).symm.trans (encodeFrame_getElem?_crc cfg x y z)
    rw [← take_encodeFrame] at hcrc
    refine ⟨Option.some.inj hstart, ?_, ?_, ?_, Option.some.inj hcrc⟩
    · rw [← hx, hbytes]; rfl
    · rw [← hy, hbytes]; rfl
    · rw [← hz, hbytes]; rfl

end Sys2Proof.Machine
end
